-- ==== Sys2Proof/Syntax.lean ====
section
/-! DEFINITION. The six commands of the core (30_encoding R87), as syntax. -/

namespace Sys2Proof

/-- One command: a word the host writes to CMD that matches a row of R87. `la` and `lb` are the declared lengths
in words (R83, R84), unsigned counts. They are kept as numbers, and `Instr.wellFormed` says that they fit their
6-bit fields (DESIGN CHOICE, log 11, safe). -/
inductive Instr where
  /-- KEYGEN: derive the round-key schedule (41 R133). `la` is the declared key length. -/
  | keygen (la : Nat)
  /-- ENC.D: encrypt, direct transform (42 R155). `la` declares the block, `lb` the schedule. -/
  | encD (la lb : Nat)
  /-- ENC.T: encrypt, table-accelerated transform (42 R157). -/
  | encT (la lb : Nat)
  /-- DEC.D: decrypt, direct transform (42 R156). -/
  | decD (la lb : Nat)
  /-- DEC.T: decrypt, table-accelerated transform (42 R158). -/
  | decT (la lb : Nat)
  /-- TINIT: build the acceleration tables (43 R183). -/
  | tinit
  deriving DecidableEq, Repr

end Sys2Proof
end

