-- ==== Sys2Proof/WellFormed.lean ====
section
/-! DEFINITION. Which commands have an encoding: the declared lengths fit their 6-bit fields (30_encoding R83, R84, R92). -/

namespace Sys2Proof

/-- A declared length fits its 6-bit field: 0 to 63. A larger one would spill into reserved bits, and an assembler
refuses it (R92). -/
def lengthFits (n : Nat) : Bool := decide (n < 64)

/-- Every declared length of the command fits its field. -/
def Instr.wellFormed : Instr → Bool
  | .keygen la => lengthFits la
  | .encD la lb => lengthFits la && lengthFits lb
  | .encT la lb => lengthFits la && lengthFits lb
  | .decD la lb => lengthFits la && lengthFits lb
  | .decT la lb => lengthFits la && lengthFits lb
  | .tinit => true

end Sys2Proof
end

