-- ==== Sys2Proof/Word.lean ====
section
/-! DEFINITION. The word and byte types of the core (00_scope R10, R12). -/

namespace Sys2Proof

/-- A 32-bit unsigned word (R10: WORD). -/
abbrev Word := BitVec 32

/-- An 8-bit unsigned byte (R12). -/
abbrev Byte := BitVec 8

end Sys2Proof
end

