-- ==== Sys2Proof/Decode.lean ====
section
/-! DEFINITION. The command word CMDW (30_encoding R80): its fields, the decoder and the encoder. -/

namespace Sys2Proof

/-- OP, bits 3:0 (R80, R81). -/
def opField (w : Word) : BitVec 4 := w.extractLsb' 0 4

/-- V, bit 4: 0 is Direct, 1 is TableAccelerated (R80, R82). -/
def vField (w : Word) : BitVec 1 := w.extractLsb' 4 1

/-- RSV0, bits 7:5, reserved (R80, R85). -/
def rsv0Field (w : Word) : BitVec 3 := w.extractLsb' 5 3

/-- LA, bits 13:8: the declared length of the key or the block (R80, R83). -/
def laField (w : Word) : BitVec 6 := w.extractLsb' 8 6

/-- RSV1, bits 15:14, reserved (R80, R85). -/
def rsv1Field (w : Word) : BitVec 2 := w.extractLsb' 14 2

/-- LB, bits 21:16: the declared length of the round-key schedule (R80, R84). -/
def lbField (w : Word) : BitVec 6 := w.extractLsb' 16 6

/-- RSV2, bits 31:22, reserved (R80, R85). -/
def rsv2Field (w : Word) : BitVec 10 := w.extractLsb' 22 10

/-- Some reserved bit is set (R85). -/
def reservedBitSet (w : Word) : Bool :=
  rsv0Field w != 0 || rsv1Field w != 0 || rsv2Field w != 0

/-- Why a word matches no row of R87. The core reports all three as ILLEGAL_COMMAND (R89); log 18, safe. -/
inductive DecodeError where
  /-- A bit of RSV0, RSV1 or RSV2 is set (R85). -/
  | reservedBits
  /-- OP is 0x0 or 0x5 to 0xF (R81). -/
  | reservedOpcode
  /-- A field this opcode does not use is not 0: V or LB of KEYGEN; V, LA or LB of TINIT (R82 to R84, R89). -/
  | reservedField
  deriving DecidableEq, Repr

/-- The decoder, total on all words, in the order of the checks of R90. -/
def decode (w : Word) : Except DecodeError Instr :=
  if reservedBitSet w then .error .reservedBits
  else if opField w = 0x1 then
    if vField w = 0 ∧ lbField w = 0 then .ok (.keygen (laField w).toNat) else .error .reservedField
  else if opField w = 0x2 then
    if vField w = 0 then .ok (.encD (laField w).toNat (lbField w).toNat)
    else .ok (.encT (laField w).toNat (lbField w).toNat)
  else if opField w = 0x3 then
    if vField w = 0 then .ok (.decD (laField w).toNat (lbField w).toNat)
    else .ok (.decT (laField w).toNat (lbField w).toNat)
  else if opField w = 0x4 then
    if vField w = 0 ∧ laField w = 0 ∧ lbField w = 0 then .ok .tinit else .error .reservedField
  else .error .reservedOpcode

/-- The command word with these fields and 0 in every reserved bit:
`RSV2 ‖ LB ‖ RSV1 ‖ LA ‖ RSV0 ‖ V ‖ OP` (R80). -/
def packCommand (lb la : BitVec 6) (v : BitVec 1) (op : BitVec 4) : Word :=
  0#10 ++ lb ++ 0#2 ++ la ++ 0#3 ++ v ++ op

/-- The encoder: the command word of a well-formed command, by the table of R87. -/
def encode : Instr → Word
  | .keygen la => packCommand 0 (BitVec.ofNat 6 la) 0 0x1
  | .encD la lb => packCommand (BitVec.ofNat 6 lb) (BitVec.ofNat 6 la) 0 0x2
  | .encT la lb => packCommand (BitVec.ofNat 6 lb) (BitVec.ofNat 6 la) 1 0x2
  | .decD la lb => packCommand (BitVec.ofNat 6 lb) (BitVec.ofNat 6 la) 0 0x3
  | .decT la lb => packCommand (BitVec.ofNat 6 lb) (BitVec.ofNat 6 la) 1 0x3
  | .tinit => packCommand 0 0 0 0x4

/-- A row of the match and mask table of R87. -/
structure CommandRow where
  /-- The value of the fixed bits. -/
  fixed : Word
  /-- The fixed bits: OP, V, the reserved bits and every field the row does not use. -/
  mask : Word
  deriving DecidableEq, Repr

/-- The row a command belongs to: "Match and mask for a decoder" (R87). -/
def Instr.row : Instr → CommandRow
  | .keygen _ => ⟨0x00000001, 0xFFFFC0FF⟩
  | .encD _ _ => ⟨0x00000002, 0xFFC0C0FF⟩
  | .encT _ _ => ⟨0x00000012, 0xFFC0C0FF⟩
  | .decD _ _ => ⟨0x00000003, 0xFFC0C0FF⟩
  | .decT _ _ => ⟨0x00000013, 0xFFC0C0FF⟩
  | .tinit => ⟨0x00000004, 0xFFFFFFFF⟩

/-- A word matches a row: `w & mask == match` (R87). -/
def CommandRow.matchedBy (r : CommandRow) (w : Word) : Prop := w &&& r.mask = r.fixed

/-- The command word whose low `nbits` bits are `w` and whose other bits are 0. -/
def tableWord (nbits w : Nat) : Word := BitVec.ofNat 32 (w % 2 ^ nbits)

/-- What the decoder reads from the command word with low `nbits` bits `w` (the opcode table's numbering is R12's own:
bit 0 is the least significant bit of the one 32-bit word; log 20). -/
def decodeTableWord (nbits w : Nat) : Option Instr :=
  (decode (tableWord nbits w)).toOption

end Sys2Proof
end

