-- ==== Sys2Proof/Machine/Bits.lean ====
section
/-! DEFINITION. Bytes of a word, rotations, and vectors by index (00_scope R12 to R14). -/

namespace Sys2Proof.Machine

/-- A vector given by a function of the index; its list form is a plain map, so the kernel can evaluate it. -/
def tabulate {α : Type} (n : Nat) (f : Nat → α) : Vector α n :=
  ⟨((List.range n).map f).toArray, by simp⟩

/-- `byte(x, k) = x[8k+7 : 8k]`; byte 3 is the most significant (R13). -/
def byteAt (x : Word) (k : Nat) : Byte := x.extractLsb' (8 * k) 8

/-- The word of four bytes, most significant first: `b3 ‖ b2 ‖ b1 ‖ b0` (R12, R13). -/
def wordOfBytes (b3 b2 b1 b0 : Byte) : Word := b3 ++ b2 ++ b1 ++ b0

/-- `zext_32(b) << n`: the byte placed n bits up in a zero word (R12). -/
def byteShifted (b : Byte) (n : Nat) : Word := b.setWidth 32 <<< n

/-- `rotl32(x, n)`: circular left rotation, the amount taken modulo 32 (R14). -/
def rotl32 (x : Word) (n : Nat) : Word := x.rotateLeft n

/-- `rotr32(x, n) = rotl32(x, (32 − n) mod 32)`, the amount taken modulo 32 (R14). -/
def rotr32 (x : Word) (n : Nat) : Word := rotl32 x ((32 - n % 32) % 32)

end Sys2Proof.Machine
end

