-- ==== Sys2Proof/Machine/Expansion.lean ====
section
/-! DEFINITION. The expansion buffer X[0..35] (10_state R34) that KEYGEN, ENC and DEC share: a seed of four words and 32
words that each follow from the four before them. -/

namespace Sys2Proof.Machine

/-- Four consecutive words X[i], X[i+1], X[i+2], X[i+3] of the expansion buffer. A sliding window is all of the buffer
that a round reads (10 R34, 41 R139; log 12, safe). -/
structure Window where
  x0 : Word
  x1 : Word
  x2 : Word
  x3 : Word
  deriving DecidableEq, Repr

/-- One round: the word X[i+4] = X[i] ⊕ F(X[i+1] ⊕ X[i+2] ⊕ X[i+3] ⊕ k) enters and X[i] leaves (41 R134, 42 R151). -/
def roundStep (F : Word → Word) (k : Word) (w : Window) : Window :=
  ⟨w.x1, w.x2, w.x3, w.x0 ^^^ F (w.x1 ^^^ w.x2 ^^^ w.x3 ^^^ k)⟩

/-- The window after `n` rounds, whose round i uses the constant or subkey `k i`; the rounds run in increasing i. -/
def windowAfter (F : Word → Word) (k : Nat → Word) (seed : Window) : Nat → Window
  | 0 => seed
  | n + 1 => roundStep F (k n) (windowAfter F k seed n)

/-- Element `n` of a vector used as an array of words. Every index that a command's own loop bounds give is in range
(20_memory R67), so the value 0 outside the range is never used. -/
def wordAt {n : Nat} (v : Vector Word n) (i : Nat) : Word := v[i]?.getD 0

end Sys2Proof.Machine
end

