-- ==== Sys2Proof/Machine/State.lean ====
section
/-! DEFINITION. The state of the machine: the core's state record (10_state R20) and the host port in front of it. -/

namespace Sys2Proof.Machine

/-- The core's architectural state: "exactly this record" (10_state R20). -/
structure CoreState where
  /-- KEY[0..3], the master key, most significant word first (R21). -/
  key : Vector Word 4
  /-- BLK[0..3], the block, transformed in place, most significant word first (R22). -/
  blk : Vector Word 4
  /-- RK[0..31], the round-key schedule in derivation order (R23). -/
  rk  : Vector Word 32
  /-- TBL, the four acceleration tables (R33). -/
  tbl : Vector (Vector Word 256) 4
  /-- STATUS.TV: the acceleration tables are valid (R28). -/
  tv  : Bool
  /-- STATUS.ERR: the outcome of the last command (R27). -/
  err : BitVec 4
  deriving DecidableEq, Repr

/-- One host action (00_scope R18): a word read, a word write or a reset. `n` is the width of the access in bytes and
`off` its offset in the register window (20_memory R50); R15 writes them `MemRead(off, n)`, `MemWrite(off, n, v)`.
The data of a write of any other width than 4 is never looked at (log 16, safe). -/
inductive HostAction where
  /-- `MemRead(off, n)` (20_memory R53). -/
  | read (n off : Nat)
  /-- `MemWrite(off, n, v)` (20_memory R52). -/
  | write (n off : Nat) (v : Word)
  /-- Asserting the hardware reset input (70_reset R230). -/
  | reset
  deriving DecidableEq, Repr

/-- The whole machine: the core, and the host's side of its one port. The last three fields are the model's own
(DESIGN CHOICE, log 2, 3, 4). -/
structure State where
  /-- The core's state record (10_state R20). -/
  core    : CoreState
  /-- The host actions still to be performed, oldest first: the host's program (10_state R38, 20_memory R68). -/
  pending : List HostAction
  /-- The word the last host action returned to the host; `none` if it returned none (20_memory R53). -/
  reply   : Option Word
  /-- How many values of RESET_DRAW have been used (00_scope R11): the counter behind the free values of reset. -/
  drawn   : Nat
  deriving DecidableEq, Repr

/-- Why the machine stops with a fault. -/
inductive Fault where
  /-- HostBusError(off), raised by a host access inside the window that is misaligned, of another width than one word,
  or at an unmapped offset (20_memory R54, R57, R58). Safe: the spec says that a model treats it as a fault of the host
  program, and a faulted run is never final (R58); log 7. -/
  | hostBusError (off : Nat)
  deriving DecidableEq, Repr

/-- Why the machine has no meaning for what it was asked. -/
inductive Refusal where
  /-- Raised by an arm of `exec` that has no meaning yet; no arm raises it. Safe. -/
  | notModelled (mnemonic : String)
  /-- Raised by a host access at an offset of 0x100 or more: outside the window, the core does not decode it and the
  platform decides (20_memory R57, 93 U5 "refuse"). Safe; log 6. -/
  | outsideWindow (off : Nat)
  deriving DecidableEq, Repr

/-- How many draws one reset takes: KEY 4, BLK 4, RK 32 and TBL 1024 words (10_state R37). -/
def resetDraws : Nat := 1064

/-- The core right after a reset (10_state R37, 70_reset R230): TV = 0 and ERR = 0, and KEY, BLK, RK and TBL hold the
draws from number `n` on. The draws are free values: "A model must not pick zero" (R37). DESIGN CHOICE in its form;
log 1. -/
def CoreState.afterReset (n : Nat) : CoreState where
  key := tabulate 4 fun i => Config.resetDraw (n + i)
  blk := tabulate 4 fun i => Config.resetDraw (n + 4 + i)
  rk  := tabulate 32 fun i => Config.resetDraw (n + 8 + i)
  tbl := tabulate 4 fun k => tabulate 256 fun b => Config.resetDraw (n + 40 + 256 * k + b)
  tv  := false
  err := 0

/-- The machine right after reset (10_state R37): no host action is pending and none has been performed (log 1 to 4). -/
def State.reset : State where
  core    := CoreState.afterReset 0
  pending := []
  reply   := none
  drawn   := resetDraws

end Sys2Proof.Machine
end

