-- ==== Sys2Proof/Machine/Flags.lean ====
section
/-! DEFINITION. STATUS: the error codes (60_exceptions R200), the fields ERR and TV, and the word a host reads
(10_state R26 to R28). -/

namespace Sys2Proof.Machine

/-- The errors a command can report (60 R200). -/
inductive CommandError where
  /-- The declared key, block or schedule length is not 4, 4 or 32 words. -/
  | invalidLength
  /-- The table-accelerated transform was requested before TINIT. -/
  | notInitialized
  /-- Reserved opcode, reserved bit set, or a field reserved for the opcode not 0. -/
  | illegalCommand
  deriving DecidableEq, Repr

/-- The code of OK (60 R200). -/
def okCode : BitVec 4 := 0x0

/-- The code of an error in STATUS.ERR (60 R200). -/
def CommandError.code : CommandError → BitVec 4
  | .invalidLength => 0x1
  | .notInitialized => 0x2
  | .illegalCommand => 0x3

/-- `ERR <- e`. -/
def CoreState.setErr (e : BitVec 4) (c : CoreState) : CoreState := { c with err := e }

/-- `TV <- 1`: nothing but reset ever clears TV (10 R28). -/
def CoreState.setTv (c : CoreState) : CoreState := { c with tv := true }

/-- The word a read of STATUS gives: `zext_32(TV) << 8 | zext_32(ERR)` (10 R26). -/
def statusWord (c : CoreState) : Word :=
  (BitVec.ofBool c.tv).setWidth 32 <<< 8 ||| c.err.setWidth 32

end Sys2Proof.Machine
end

