-- ==== Sys2Proof/Machine/Operands.lean ====
section
/-! DEFINITION. The operands: the registers of the window and how an access names one (20_memory R51, R54, R57), and the
declared lengths of a command (30_encoding R83, R84). A command names no register (30 R86). -/

namespace Sys2Proof.Machine

/-- The registers of the window (20 R51). -/
inductive Reg where
  | key (i : Fin 4)
  | blk (i : Fin 4)
  | cmd
  | status
  | rk (i : Fin 32)
  deriving DecidableEq, Repr

/-- The window offset of a register (20 R51). -/
def Reg.offset : Reg → Nat
  | .key i => 4 * i
  | .blk i => 0x010 + 4 * i
  | .cmd => 0x020
  | .status => 0x024
  | .rk i => 0x080 + 4 * i

/-- The address of a register in the host's address space: the window sits at BASE (20 R50). No rule reads it. -/
def Reg.hostAddress (r : Reg) : Nat := Config.base + r.offset

/-- The register at a word-aligned offset; every other offset is unmapped (20 R51). -/
def regAt (off : Nat) : Option Reg :=
  if h : off < 0x010 then some (.key ⟨off / 4, by omega⟩)
  else if h : off < 0x020 then some (.blk ⟨(off - 0x010) / 4, by omega⟩)
  else if off = 0x020 then some .cmd
  else if off = 0x024 then some .status
  else if h : 0x080 ≤ off ∧ off < 0x100 then some (.rk ⟨(off - 0x080) / 4, by omega⟩)
  else none

/-- What a host access reaches. -/
inductive Access where
  /-- A register of the window. -/
  | reg (r : Reg)
  /-- Inside the window, but misaligned, not one word wide, or unmapped: HostBusError (20 R54, R57). -/
  | busError
  /-- Outside the window (20 R57). -/
  | outside
  deriving DecidableEq, Repr

/-- What an access of `n` bytes at offset `off` reaches. An offset of 0x100 or more is outside the window whatever the
width: the core does not decode it (20 R57; DEDUCED, log 6, safe). -/
def access (n off : Nat) : Access :=
  if 0x100 ≤ off then .outside
  else if n = 4 ∧ off % 4 = 0 then
    match regAt off with
    | some r => .reg r
    | none => .busError
  else .busError

/-- The declared length of a key or a block is legal: 4 words (30 R83). -/
def blockLengthLegal (la : Nat) : Bool := la == 4

/-- The declared length of a round-key schedule is legal: 32 words (30 R84). -/
def scheduleLengthLegal (lb : Nat) : Bool := lb == 32

end Sys2Proof.Machine
end

