-- ==== Sys2Proof/Machine/Ops.lean ====
section
/-! DEFINITION. The shared operations: reading and writing the core's registers, ending a command (with OK or with an
error), and reset. -/

namespace Sys2Proof.Machine

/-- Change the core and nothing of the host port. -/
def State.onCore (f : CoreState → CoreState) (s : State) : State := { s with core := f s.core }

/-- The host takes its next action: it leaves `pending`, and the reply of the action before it is gone. -/
def State.takeAction (rest : List HostAction) (s : State) : State :=
  { s with pending := rest, reply := none }

/-- The action returns a word to the host (20_memory R53). -/
def State.setReply (v : Word) (s : State) : State := { s with reply := some v }

/-- `KEY[i] <- v` (20_memory R52). -/
def CoreState.setKeyWord (i : Fin 4) (v : Word) (c : CoreState) : CoreState :=
  { c with key := c.key.set i v }

/-- `BLK[i] <- v` (20_memory R52). -/
def CoreState.setBlkWord (i : Fin 4) (v : Word) (c : CoreState) : CoreState :=
  { c with blk := c.blk.set i v }

/-- All four BLK words at once (42_round_engine R161). -/
def CoreState.setBlk (b : Vector Word 4) (c : CoreState) : CoreState := { c with blk := b }

/-- All 32 RK words at once (41_key_schedule R135). -/
def CoreState.setRk (k : Vector Word 32) (c : CoreState) : CoreState := { c with rk := k }

/-- All 1024 table entries (43_table_transform R183). -/
def CoreState.setTbl (t : Vector (Vector Word 256) 4) (c : CoreState) : CoreState := { c with tbl := t }

/-- The value a host read of a register gives (20_memory R53). CMD keeps no value and reads 0 (R55). -/
def readReg (r : Reg) (c : CoreState) : Word :=
  match r with
  | .key i => c.key[i]
  | .blk i => c.blk[i]
  | .cmd => 0
  | .status => statusWord c
  | .rk i => c.rk[i]

/-- The end of a command that succeeds: `ERR <- OK` (10_state R27). -/
def succeed (c : CoreState) : CoreState := c.setErr okCode

/-- `raise Error(e)`: the one way a command reports an error. ERR gets the code, the command ends, and nothing else is
written; there is no vector, saved state or mode, and no return (60_exceptions R203, R205). -/
def raiseError (e : CommandError) (c : CoreState) : CoreState := c.setErr e.code

/-- Reset (70_reset R230): the core takes its reset values, with fresh draws. The host's program and the host's side of
the port are not the core's, so they stay. -/
def resetMachine (s : State) : State :=
  { s with core := CoreState.afterReset s.drawn, drawn := s.drawn + resetDraws }

end Sys2Proof.Machine
end

