-- ==== Sys2Proof/Machine/Units.lean ====
section
/-! DEFINITION. The combinational units of the core (40_sbox_diffusion): S, tau, L, L′, T and T′. Each is a total, pure
function; none is a command (R109). -/

namespace Sys2Proof.Machine

/-- S: byte substitution, `S(b) = SBOX[b]` (R100). -/
def sboxS (b : Byte) : Byte := Config.sbox[b.toNat]'b.isLt

/-- τ: S applied to the four bytes of a word independently, recombined in the same order (R101). -/
def tau (x : Word) : Word :=
  wordOfBytes (sboxS (byteAt x 3)) (sboxS (byteAt x 2)) (sboxS (byteAt x 1)) (sboxS (byteAt x 0))

/-- L: round diffusion (R103, amounts of R102). -/
def diffusionL (b : Word) : Word :=
  b ^^^ rotl32 b 2 ^^^ rotl32 b 10 ^^^ rotl32 b 18 ^^^ rotl32 b 24

/-- L′: key-schedule diffusion (R104, amounts of R102). -/
def diffusionLPrime (b : Word) : Word :=
  b ^^^ rotl32 b 13 ^^^ rotl32 b 23

/-- T: round composite transform, direct form, `T(x) = L(tau(x))` (R107). -/
def transformT (x : Word) : Word := diffusionL (tau x)

/-- T′: key-schedule composite transform, `T′(x) = L′(tau(x))` (R108). -/
def transformTPrime (x : Word) : Word := diffusionLPrime (tau x)

end Sys2Proof.Machine
end

