-- ==== Sys2Proof/Machine/KeySchedule.lean ====
section
/-! DEFINITION. The key schedule (41_key_schedule) and the command KEYGEN. -/

namespace Sys2Proof.Machine

/-- K[0..3] = key[0..3] ⊕ FK[0..3] (41 R134). -/
def keySeed (key : Vector Word 4) : Window :=
  ⟨key[0] ^^^ Config.fk[0], key[1] ^^^ Config.fk[1], key[2] ^^^ Config.fk[2], key[3] ^^^ Config.fk[3]⟩

/-- KeySchedule: `rk[i] = K[i+4]`, where `K[i+4] = K[i] ⊕ T′(K[i+1] ⊕ K[i+2] ⊕ K[i+3] ⊕ CK[i])` (41 R130, R134). -/
def keySchedule (key : Vector Word 4) : Vector Word 32 :=
  tabulate 32 fun i => (windowAfter transformTPrime (wordAt Config.ck) (keySeed key) (i + 1)).x3

/-- KEYGEN (41 R133): RK <- KeySchedule(KEY), if the declared key length is 4 words. -/
def keygenCommand (la : Nat) (c : CoreState) : CoreState :=
  if blockLengthLegal la then succeed (c.setRk (keySchedule c.key))
  else raiseError .invalidLength c

/-- The meaning of KEYGEN (41 R133, R135, R136). -/
def execKeygen (la : Nat) (s : State) : Host.Outcome State Fault Refusal :=
  .next (s.onCore (keygenCommand la))

end Sys2Proof.Machine
end

