-- ==== Sys2Proof/Machine/TableTransform.lean ====
section
/-! DEFINITION. The table-accelerated transform (43_table_transform): the table contents, the lookup Ttab, and the command
TINIT. -/

namespace Sys2Proof.Machine

/-- `base(b) = L(zext_32(S(b)) << 24)` (43 R181). -/
def tableBase (b : Byte) : Word := diffusionL (byteShifted (sboxS b) 24)

/-- `Table_k[b] = rotr32(base(b), 8·k)` (43 R181; right rotations, 90_conflicts C1; log 10). -/
def tableEntry (k : Nat) (b : Byte) : Word := rotr32 (tableBase b) (8 * k)

/-- BuildTables: all four tables (43 R182). -/
def buildTables : Vector (Vector Word 256) 4 :=
  tabulate 4 fun k => tabulate 256 fun b => tableEntry k (BitVec.ofNat 8 b)

/-- `Table_k[b]`, the entry of table k at byte index b (00_scope R15). -/
def tableRead (tbl : Vector (Vector Word 256) 4) (k : Fin 4) (b : Byte) : Word :=
  tbl[k][b.toNat]'b.isLt

/-- Ttab: `Table0[byte3] ⊕ Table1[byte2] ⊕ Table2[byte1] ⊕ Table3[byte0]` (43 R185). -/
def ttab (tbl : Vector (Vector Word 256) 4) (v : Word) : Word :=
  tableRead tbl 0 (byteAt v 3) ^^^ tableRead tbl 1 (byteAt v 2) ^^^
    tableRead tbl 2 (byteAt v 1) ^^^ tableRead tbl 3 (byteAt v 0)

/-- TINIT (43 R183): TBL <- BuildTables(), TV <- 1, ERR <- OK. -/
def tinitCommand (c : CoreState) : CoreState :=
  succeed ((c.setTbl buildTables).setTv)

/-- The meaning of TINIT (43 R183, R184, R187). -/
def execTinit (s : State) : Host.Outcome State Fault Refusal :=
  .next (s.onCore tinitCommand)

end Sys2Proof.Machine
end

