-- ==== Sys2Proof/Machine/RoundEngine.lean ====
section
/-! DEFINITION. The cipher round engine (42_round_engine), written once over a direction and a variant, and the commands
ENC.D, ENC.T, DEC.D and DEC.T. -/

namespace Sys2Proof.Machine

/-- The direction, an input of the engine (42 R150). -/
inductive Direction where
  | encrypt
  | decrypt
  deriving DecidableEq, Repr

/-- The variant of the round transform (42 R152, 30_encoding R82). -/
inductive Variant where
  | direct
  | table
  deriving DecidableEq, Repr

/-- The subkey index of round i: i to encrypt, 31 − i to decrypt (42 R151). -/
def roundIndex : Direction → Nat → Nat
  | .encrypt, i => i
  | .decrypt, i => 31 - i

/-- The round transform Tv: T for the direct variant, Ttab for the table variant (42 R152). -/
def roundTransform (tbl : Vector (Vector Word 256) 4) : Variant → Word → Word
  | .direct => transformT
  | .table => ttab tbl

/-- X[0..3] = blk[0..3] (42 R153). -/
def blockSeed (blk : Vector Word 4) : Window := ⟨blk[0], blk[1], blk[2], blk[3]⟩

/-- The last four words of the expansion in reverse order: `(X[35], X[34], X[33], X[32])` (42 R154). -/
def outputBlock (w : Window) : Vector Word 4 := ⟨#[w.x3, w.x2, w.x1, w.x0], rfl⟩

/-- Crypt: 32 rounds of the recurrence and the output extraction (42 R150 to R154). -/
def crypt (tbl : Vector (Vector Word 256) 4) (blk : Vector Word 4) (rk : Vector Word 32)
    (dir : Direction) (var : Variant) : Vector Word 4 :=
  outputBlock (windowAfter (roundTransform tbl var) (fun i => wordAt rk (roundIndex dir i)) (blockSeed blk) 32)

/-- ENC and DEC (42 R155 to R158): the length checks, then (table variant only) the check that the tables are valid, then
BLK <- Crypt(BLK, RK, dir, var); the order of the checks is that of 30_encoding R90. -/
def cryptCommand (dir : Direction) (var : Variant) (la lb : Nat) (c : CoreState) : CoreState :=
  if blockLengthLegal la && scheduleLengthLegal lb then
    if var = .table ∧ c.tv = false then raiseError .notInitialized c
    else succeed (c.setBlk (crypt c.tbl c.blk c.rk dir var))
  else raiseError .invalidLength c

/-- The meaning of ENC.D (42 R155). -/
def execEncD (la lb : Nat) (s : State) : Host.Outcome State Fault Refusal :=
  .next (s.onCore (cryptCommand .encrypt .direct la lb))

/-- The meaning of ENC.T (42 R157). -/
def execEncT (la lb : Nat) (s : State) : Host.Outcome State Fault Refusal :=
  .next (s.onCore (cryptCommand .encrypt .table la lb))

/-- The meaning of DEC.D (42 R156). -/
def execDecD (la lb : Nat) (s : State) : Host.Outcome State Fault Refusal :=
  .next (s.onCore (cryptCommand .decrypt .direct la lb))

/-- The meaning of DEC.T (42 R158). -/
def execDecT (la lb : Nat) (s : State) : Host.Outcome State Fault Refusal :=
  .next (s.onCore (cryptCommand .decrypt .table la lb))

end Sys2Proof.Machine
end

