-- ==== Sys2Proof/Machine/Dispatch.lean ====
section
/-! DEFINITION. What each command does: one arm per constructor of Instr. -/

namespace Sys2Proof.Machine

def exec (i : Instr) (s : State) : Host.Outcome State Fault Refusal :=
  match i with
  | .keygen la => Sys2Proof.Machine.execKeygen la s
  | .encD la lb => Sys2Proof.Machine.execEncD la lb s
  | .encT la lb => Sys2Proof.Machine.execEncT la lb s
  | .decD la lb => Sys2Proof.Machine.execDecD la lb s
  | .decT la lb => Sys2Proof.Machine.execDecT la lb s
  | .tinit => Sys2Proof.Machine.execTinit s

end Sys2Proof.Machine
end

