-- ==== Sys2Proof/Machine/HostPort.lean ====
section
/-! DEFINITION. The host port: issuing a command word (30_encoding R90) and the host actions (20_memory R52 to R58,
70_reset R230). -/

namespace Sys2Proof.Machine

/-- `issue(w)`: a word that matches a row of 30_encoding R87 runs as its command; any other is ILLEGAL_COMMAND
(30 R89, R90). -/
def issue (w : Word) (s : State) : Host.Outcome State Fault Refusal :=
  match decode w with
  | .ok i => exec i s
  | .error _ => .next (s.onCore (raiseError .illegalCommand))

/-- A host write of a word to a register (20_memory R52). Writes to STATUS and RK are ignored (R56). -/
def writeReg (r : Reg) (v : Word) (s : State) : Host.Outcome State Fault Refusal :=
  match r with
  | .key i => .next (s.onCore (CoreState.setKeyWord i v))
  | .blk i => .next (s.onCore (CoreState.setBlkWord i v))
  | .cmd => issue v s
  | .status => .next s
  | .rk _ => .next s

/-- `MemRead(off, n)` (20_memory R53, R57, R58): the reply is the register's value, and the core does not change. -/
def memRead (n off : Nat) (s : State) : Host.Outcome State Fault Refusal :=
  match access n off with
  | .reg r => .next (s.setReply (readReg r s.core))
  | .busError => .fault (.hostBusError off)
  | .outside => .refused (.outsideWindow off)

/-- `MemWrite(off, n, v)` (20_memory R52, R57, R58). -/
def memWrite (n off : Nat) (v : Word) (s : State) : Host.Outcome State Fault Refusal :=
  match access n off with
  | .reg r => writeReg r v s
  | .busError => .fault (.hostBusError off)
  | .outside => .refused (.outsideWindow off)

/-- One host action, on the state from which the action has already been taken (00_scope R18, 92 D30). -/
def perform (a : HostAction) (s : State) : Host.Outcome State Fault Refusal :=
  match a with
  | .read n off => memRead n off s
  | .write n off v => memWrite n off v s
  | .reset => .next (resetMachine s)

/-- One step: the next host action of the program, if there is one; with none the core does nothing (70_reset R231;
DEDUCED, log 5, safe). -/
def hostStep (s : State) : Host.Outcome State Fault Refusal :=
  match s.pending with
  | [] => .next s
  | a :: rest => perform a (s.takeAction rest)

/-- Put a host action in front of the host's program. -/
def State.pushAction (a : HostAction) (s : State) : State := { s with pending := a :: s.pending }

/-- The host action that issues a command word: a word write to CMD (30_encoding R80, R92). -/
def issueAction (w : Word) : HostAction := .write 4 Reg.cmd.offset w

end Sys2Proof.Machine
end

