-- ==== Sys2Proof/Machine/Step.lean ====
section
/-! DEFINITION. One step of the machine: one host action (00_scope R18, 92 D30). -/

namespace Sys2Proof.Machine

/-- One step is the next host action; a CMD write runs the whole command (70_reset R240). -/
def step (s : State) : Host.Outcome State Fault Refusal := hostStep s

/-- The state whose next host action writes the command word with low `nbits` bits `w` (all others 0) to CMD. The core
fetches no code (20_memory R71); this stands for the host's program being given from outside (log 3). -/
def State.withFetchWord (s : State) (nbits w : Nat) : State :=
  s.pushAction (issueAction (tableWord nbits w))

end Sys2Proof.Machine
end

