-- ==== Sys2Proof/Machine/HostProgram.lean ====
section
/-! DEFINITION. Host programs: the statements of 30_encoding R91, the command mnemonics of R92 and their expansion into
host actions, and how each is written as text. The syntax has no meaning beyond its expansion (92 D24; log 17). -/

namespace Sys2Proof.Machine

/-- A statement of a host program (30 R91, R92). -/
inductive HostStmt where
  /-- `wr <reg>, <imm32>`. -/
  | wr (r : Reg) (v : Word)
  /-- `wr @0x<hex>, <imm32>`: a write at a given offset. -/
  | wrAt (off : Nat) (v : Word)
  /-- `rd <reg>`. -/
  | rd (r : Reg)
  /-- `rd @0x<hex>`: a read at a given offset. -/
  | rdAt (off : Nat)
  /-- A command mnemonic with its lengths, as in `enc.d la=<n>, lb=<m>`. -/
  | command (i : Instr)
  /-- `cmd <imm32>`: a raw command word, used to issue illegal words. -/
  | cmd (w : Word)
  /-- `ldkey a, b, c, d`. -/
  | ldkey (a b c d : Word)
  /-- `ldblk a, b, c, d`. -/
  | ldblk (a b c d : Word)
  /-- No statement, as on an empty line. -/
  | skip
  /-- One statement after another. -/
  | seq (p q : HostStmt)
  /-- `repeat <n> { … }`, which expands to n copies; the core does not see it. -/
  | repeatTimes (n : Nat) (p : HostStmt)
  deriving DecidableEq, Repr

/-- `keygen`: the declared key length is 4 (30 R92). -/
def HostStmt.keygen : HostStmt := .command (.keygen 4)

/-- `enc.d`: the declared lengths are 4 and 32 (30 R92). -/
def HostStmt.encD : HostStmt := .command (.encD 4 32)

/-- `enc.t` (30 R92). -/
def HostStmt.encT : HostStmt := .command (.encT 4 32)

/-- `dec.d` (30 R92). -/
def HostStmt.decD : HostStmt := .command (.decD 4 32)

/-- `dec.t` (30 R92). -/
def HostStmt.decT : HostStmt := .command (.decT 4 32)

/-- `tinit` (30 R92). -/
def HostStmt.tinit : HostStmt := .command .tinit

/-- `enc`, another name of `enc.d` (30 R92). -/
def HostStmt.enc : HostStmt := HostStmt.encD

/-- `dec`, another name of `dec.d` (30 R92). -/
def HostStmt.dec : HostStmt := HostStmt.decD

/-- `MemWrite(offset(reg), 4, v)` (30 R91). -/
def writeAction (r : Reg) (v : Word) : HostAction := .write 4 r.offset v

/-- `MemRead(offset(reg), 4)` (30 R91). -/
def readAction (r : Reg) : HostAction := .read 4 r.offset

/-- The host actions a statement expands to; `none` where the assembler refuses a length over 63 (30 R91, R92). -/
def HostStmt.assemble : HostStmt → Option (List HostAction)
  | .wr r v => some [writeAction r v]
  | .wrAt off v => some [.write 4 off v]
  | .rd r => some [readAction r]
  | .rdAt off => some [.read 4 off]
  | .command i => if i.wellFormed then some [issueAction (encode i)] else none
  | .cmd w => some [issueAction w]
  | .ldkey a b c d =>
    some [writeAction (.key 0) a, writeAction (.key 1) b, writeAction (.key 2) c, writeAction (.key 3) d]
  | .ldblk a b c d =>
    some [writeAction (.blk 0) a, writeAction (.blk 1) b, writeAction (.blk 2) c, writeAction (.blk 3) d]
  | .skip => some []
  | .seq p q =>
    match p.assemble, q.assemble with
    | some as, some bs => some (as ++ bs)
    | _, _ => none
  | .repeatTimes n p =>
    match p.assemble with
    | some as => some (List.replicate n as).flatten
    | none => none

/-- A number in hexadecimal, `0x…` (30 R91). -/
def hexText (n : Nat) : String := "0x" ++ String.ofList (Nat.toDigits 16 n)

/-- The name of a register in a host program (30 R91). -/
def Reg.text : Reg → String
  | .key i => "KEY" ++ toString i.val
  | .blk i => "BLK" ++ toString i.val
  | .cmd => "CMD"
  | .status => "STATUS"
  | .rk i => "RK" ++ toString i.val

/-- A declared length that is not the default is written out (30 R92). -/
def cryptText (stem : String) (la lb : Nat) : String :=
  if la = 4 ∧ lb = 32 then stem else stem ++ " la=" ++ toString la ++ ", lb=" ++ toString lb

/-- The mnemonic of a command with its lengths (30 R92). -/
def commandText : Instr → String
  | .keygen la => if la = 4 then "keygen" else "keygen la=" ++ toString la
  | .encD la lb => cryptText "enc.d" la lb
  | .encT la lb => cryptText "enc.t" la lb
  | .decD la lb => cryptText "dec.d" la lb
  | .decT la lb => cryptText "dec.t" la lb
  | .tinit => "tinit"

/-- Four words separated by commas, most significant word first (00_scope R16). -/
def fourText (a b c d : Word) : String :=
  hexText a.toNat ++ ", " ++ hexText b.toNat ++ ", " ++ hexText c.toNat ++ ", " ++ hexText d.toNat

/-- The lines of a host program (30 R91, R92); characters 123 and 125 are the braces of `repeat`. -/
def HostStmt.lines : HostStmt → List String
  | .wr r v => ["wr " ++ r.text ++ ", " ++ hexText v.toNat]
  | .wrAt off v => ["wr @" ++ hexText off ++ ", " ++ hexText v.toNat]
  | .rd r => ["rd " ++ r.text]
  | .rdAt off => ["rd @" ++ hexText off]
  | .command i => [commandText i]
  | .cmd w => ["cmd " ++ hexText w.toNat]
  | .ldkey a b c d => ["ldkey " ++ fourText a b c d]
  | .ldblk a b c d => ["ldblk " ++ fourText a b c d]
  | .skip => []
  | .seq p q => p.lines ++ q.lines
  | .repeatTimes n p =>
    ["repeat " ++ toString n ++ " " ++ String.singleton (Char.ofNat 123)] ++ p.lines ++
      [String.singleton (Char.ofNat 125)]

/-- The machine with this host program to run. -/
def State.withProgram (s : State) (p : List HostAction) : State := { s with pending := p }

end Sys2Proof.Machine
end

