-- ==== Sys2Proof/Machine/Assembler.lean ====
section
/-! DEFINITION. The assembler: from the text of a host program (30_encoding R91, R92) to its host actions. What no rule of R91
or R92 gives a form is refused (log 17). -/

namespace Sys2Proof.Machine

/-- The characters that stand as a token of their own: comma, equals sign and the braces (123 and 125) of `repeat`. -/
def separators : List Char := [',', '=', Char.ofNat 123, Char.ofNat 125]

/-- The opening brace of `repeat`. -/
def openBrace : String := String.singleton (Char.ofNat 123)

/-- The closing brace of `repeat`. -/
def closeBrace : String := String.singleton (Char.ofNat 125)

/-- The characters of a line up to its comment, which starts at `;` (30 R91). -/
def beforeComment : List Char → List Char
  | [] => []
  | c :: cs => if c = ';' then [] else c :: beforeComment cs

/-- The word whose characters have been read in reverse, if there are any. -/
def finishToken (rev : List Char) : List String :=
  if rev = [] then [] else [String.ofList rev.reverse]

/-- The tokens of a line; `rev` holds the characters of the word begun, in reverse. -/
def tokens (rev : List Char) : List Char → List String
  | [] => finishToken rev
  | c :: cs =>
    if c = ' ' ∨ c = '\t' then finishToken rev ++ tokens [] cs
    else if c ∈ separators then finishToken rev ++ [String.singleton c] ++ tokens [] cs
    else tokens (c :: rev) cs

/-- The statements a line holds: a line break may be left out after an opening brace and around a closing one, as in the form
`repeat <n> { … }` of 30 R91. -/
def cutAtBraces (rev : List String) : List String → List (List String)
  | [] => [rev.reverse]
  | t :: ts =>
    if t = openBrace then (t :: rev).reverse :: cutAtBraces [] ts
    else if t = closeBrace then rev.reverse :: [t] :: cutAtBraces [] ts
    else cutAtBraces (t :: rev) ts

/-- The value of a digit, in either case of the letters. -/
def digitValue (c : Char) : Option Nat :=
  if '0' ≤ c ∧ c ≤ '9' then some (c.toNat - 48)
  else if 'a' ≤ c ∧ c ≤ 'f' then some (c.toNat - 87)
  else if 'A' ≤ c ∧ c ≤ 'F' then some (c.toNat - 55)
  else none

/-- The number that `base` reads from digits after the digits of `n`. -/
def digitsValue (base n : Nat) : List Char → Option Nat
  | [] => some n
  | c :: cs =>
    match digitValue c with
    | some d => if d < base then digitsValue base (base * n + d) cs else none
    | none => none

/-- A number: hexadecimal after `0x`, else decimal (30 R91). -/
def numberOf (cs : List Char) : Option Nat :=
  match cs with
  | '0' :: 'x' :: d :: ds => digitsValue 16 0 (d :: ds)
  | d :: ds => digitsValue 10 0 (d :: ds)
  | [] => none

/-- `<imm32>`: a literal from 0 to 2³² − 1 (30 R91). -/
def imm32Of (t : String) : Option Word :=
  match numberOf t.toList with
  | some n => if n < 2 ^ 32 then some (BitVec.ofNat 32 n) else none
  | none => none

/-- Every register of the window (20_memory R51). -/
def allRegs : List Reg :=
  (List.finRange 4).map Reg.key ++ (List.finRange 4).map Reg.blk ++ [.cmd, .status] ++ (List.finRange 32).map Reg.rk

/-- `<reg>`: a register's name, or an offset written `@0x<hex>` (30 R91). -/
def placeOf (t : String) : Option (Reg ⊕ Nat) :=
  match t.toList with
  | '@' :: '0' :: 'x' :: d :: ds => (digitsValue 16 0 (d :: ds)).map Sum.inr
  | _ => (allRegs.find? fun r => r.text = t).map Sum.inl

/-- A command with the two lengths written out (30 R92). -/
def twoLengths (f : Nat → Nat → Instr) (n m : String) : Option HostStmt :=
  match numberOf n.toList, numberOf m.toList with
  | some la, some lb => some (.command (f la lb))
  | _, _ => none

/-- The four operands of `ldkey` and `ldblk` (30 R92). -/
def fourOperands (f : Word → Word → Word → Word → HostStmt) (a b c d : String) : Option HostStmt :=
  match imm32Of a, imm32Of b, imm32Of c, imm32Of d with
  | some x, some y, some z, some w => some (f x y z w)
  | _, _, _, _ => none

/-- One statement of 30 R91 or R92, from its tokens; `repeat` is the work of `programOf`. -/
def statementOf : List String → Option HostStmt
  | ["wr", r, ",", v] =>
    match placeOf r, imm32Of v with
    | some (.inl reg), some x => some (.wr reg x)
    | some (.inr off), some x => some (.wrAt off x)
    | _, _ => none
  | ["rd", r] =>
    match placeOf r with
    | some (.inl reg) => some (.rd reg)
    | some (.inr off) => some (.rdAt off)
    | none => none
  | ["keygen"] => some .keygen
  | ["keygen", "la", "=", n] => (numberOf n.toList).map fun la => .command (.keygen la)
  | ["enc.d"] => some .encD
  | ["enc.t"] => some .encT
  | ["dec.d"] => some .decD
  | ["dec.t"] => some .decT
  | ["enc.d", "la", "=", n, ",", "lb", "=", m] => twoLengths .encD n m
  | ["enc.t", "la", "=", n, ",", "lb", "=", m] => twoLengths .encT n m
  | ["dec.d", "la", "=", n, ",", "lb", "=", m] => twoLengths .decD n m
  | ["dec.t", "la", "=", n, ",", "lb", "=", m] => twoLengths .decT n m
  | ["tinit"] => some .tinit
  | ["enc"] => some .enc
  | ["dec"] => some .dec
  | ["cmd", v] => (imm32Of v).map .cmd
  | ["ldkey", a, ",", b, ",", c, ",", d] => fourOperands .ldkey a b c d
  | ["ldblk", a, ",", b, ",", c, ",", d] => fourOperands .ldblk a b c d
  | [] => some .skip
  | _ => none

/-- The `repeat` a statement opens: its count (30 R91). -/
def repeatOf : List String → Option Nat
  | [word, n, brace] => if word = "repeat" ∧ brace = openBrace then numberOf n.toList else none
  | _ => none

/-- The program of a sequence of statements. `opened` holds, for each `repeat` that is still open, its count and what stands
before it; `done` is what stands since the innermost one. A brace that does not close or was not opened is refused. -/
def programOf (opened : List (Nat × HostStmt)) (done : HostStmt) : List (List String) → Option HostStmt
  | [] => if opened = [] then some done else none
  | l :: ls =>
    match repeatOf l with
    | some n => programOf ((n, done) :: opened) .skip ls
    | none =>
      if l = [closeBrace] then
        match opened with
        | (n, before) :: outer => programOf outer (.seq before (.repeatTimes n done)) ls
        | [] => none
      else
        match statementOf l with
        | some p => programOf opened (.seq done p) ls
        | none => none

/-- The host program that the lines of a text say, if each has a form of 30 R91 or R92. -/
def parseText (text : List String) : Option HostStmt :=
  programOf [] .skip (text.flatMap fun l => cutAtBraces [] (tokens [] (beforeComment l.toList)))

/-- The host actions of a program text; `none` where the assembler refuses it (30 R91, R92). -/
def assembleText (text : List String) : Option (List HostAction) :=
  match parseText text with
  | some p => p.assemble
  | none => none

end Sys2Proof.Machine
end

