-- ==== Sys2Proof/Safety.lean ====
section
/-! DEFINITION. What counts as a safe state and a safe host program, and the terms the statements use. -/

namespace Sys2Proof.Machine

/-- TV = 1 only if the tables hold the values of 43 R181 (10_state R28). -/
def TablesValid (c : CoreState) : Prop := c.tv = true → c.tbl = buildTables

/-- ERR holds one of the codes OK, INVALID_LENGTH, NOT_INITIALIZED, ILLEGAL_COMMAND (60 R200: 0x4 to 0xF are never
written). -/
def ErrLegal (c : CoreState) : Prop := c.err.toNat ≤ 3

/-- The machine's invariant. -/
def MachineInv (s : State) : Prop := TablesValid s.core ∧ ErrLegal s.core

/-- The host action is an access the core answers (20_memory R51, R57), or a reset. -/
def HostAction.answered : HostAction → Prop
  | .read n off => ∃ r, access n off = .reg r
  | .write n off _ => ∃ r, access n off = .reg r
  | .reset => True

/-- Every host action of the program is one the core answers. -/
def SafeProgram (p : List HostAction) : Prop := ∀ a ∈ p, a.answered

/-- The next host action issues the command word `w` (10_state R25). -/
def Issues (s : State) (w : Word) : Prop := ∃ rest, s.pending = .write 4 0x020 w :: rest

/-- The next host action is a reset (70_reset R230). -/
def Resets (s : State) : Prop := ∃ rest, s.pending = .reset :: rest

/-- The next host action writes `v` to the register `r`. -/
def Writes (s : State) (r : Reg) (v : Word) : Prop := ∃ rest, s.pending = .write 4 r.offset v :: rest

/-- `X` is an expansion buffer of 36 words by the recurrence that 41 R134 and 42 R151 share, for the transform `F` and
the constant or subkey `k i` of round i. -/
def IsExpansion (F : Word → Word) (k : Nat → Word) (X : Nat → Word) : Prop :=
  ∀ i < 32, X (i + 4) = X i ^^^ F (X (i + 1) ^^^ X (i + 2) ^^^ X (i + 3) ^^^ k i)

/-- The command performed `n` times, as long as it answers a next state. -/
def execTimes (i : Instr) : Nat → State → Host.Outcome State Fault Refusal
  | 0, s => .next s
  | n + 1, s =>
    match exec i s with
    | .next t => execTimes i n t
    | .fault e => .fault e
    | .refused e => .refused e

/-- Two states that a host cannot tell apart: they agree on everything but the table contents, and on those too once
TV = 1 (43 R188). -/
def SameButUnbuiltTables (s t : State) : Prop :=
  t.core.key = s.core.key ∧ t.core.blk = s.core.blk ∧ t.core.rk = s.core.rk ∧ t.core.tv = s.core.tv ∧
    t.core.err = s.core.err ∧ t.pending = s.pending ∧ t.reply = s.reply ∧ t.drawn = s.drawn ∧
    (s.core.tv = true → t.core.tbl = s.core.tbl)

end Sys2Proof.Machine
end

