-- ==== Sys2Proof/Certificates/Slice0/Obligations.lean ====
section
/-! DEFINITION. The statements for the provers, each a numbered rule of the spec or a consequence of some. -/

open Sys2Proof Sys2Proof.Machine

/-! ### Words, bytes and rotations (00_scope) -/

/-- R13: byte k of a word is its bits 8k+7 to 8k, and splitting a word most significant byte first and joining it again
gives the word. -/
def Obligations.WordIsItsFourBytes : Prop :=
  (∀ (x : Word) (k j : Nat), k < 4 → j < 8 → (byteAt x k).getLsbD j = x.getLsbD (8 * k + j)) ∧
  ∀ x : Word, wordOfBytes (byteAt x 3) (byteAt x 2) (byteAt x 1) (byteAt x 0) = x

/-- R14: rotl32 is the OR of two shifts for 1 ≤ n ≤ 31, is the identity at 0, takes its amount modulo 32, and rotr32 is
rotl32 by 32 − n. -/
def Obligations.RotationFormula : Prop :=
  (∀ (x : Word) (n : Nat), 1 ≤ n → n ≤ 31 → rotl32 x n = (x <<< n) ||| (x >>> (32 - n))) ∧
  (∀ x : Word, rotl32 x 0 = x) ∧
  (∀ (x : Word) (n : Nat), rotl32 x n = rotl32 x (n % 32)) ∧
  ∀ (x : Word) (n : Nat), n ≤ 32 → rotr32 x n = rotl32 x ((32 - n) % 32)

/-! ### Constants and units (10_state, 40_sbox_diffusion) -/

/-- R30: S is a bijection on bytes. The entries of S are the table of R29 (log 9). -/
def Obligations.SboxIsBijective : Prop :=
  (∀ a b : Byte, sboxS a = sboxS b → a = b) ∧ ∀ y : Byte, ∃ b : Byte, sboxS b = y

/-- 10 R32: the formula agrees with the table (an inference the rule marks as its own): byte j (j = 0 most significant) of CK[i] is ((4i + j) · 7) mod 256, on all 32 words. -/
def Obligations.RoundConstantsFollowTheirFormula : Prop :=
  ∀ i : Fin 32, ∀ j : Fin 4, byteAt Config.ck[i] (3 - j) = BitVec.ofNat 8 ((4 * i + j) * 7 % 256)

/-- 40 R101, with its inference that τ is a bijection: each lane of τ(x) is S of the same lane of x; two words that agree in a lane have images that agree in it; the
corner cases and examples; equal bytes stay equal; τ is a bijection. -/
def Obligations.TauSubstitutesLaneByLane : Prop :=
  (∀ (x : Word) (k : Nat), k < 4 → byteAt (tau x) k = sboxS (byteAt x k)) ∧
  (∀ (x y : Word) (k : Nat), k < 4 → byteAt x k = byteAt y k → byteAt (tau x) k = byteAt (tau y) k) ∧
  (∀ b : Byte, tau (wordOfBytes b b b b) = wordOfBytes (sboxS b) (sboxS b) (sboxS b) (sboxS b)) ∧
  Function.Bijective tau ∧
  tau 0x00000000 = 0xd6d6d6d6 ∧ tau 0xffffffff = 0x48484848 ∧
  tau 0x00010203 = 0xd690e9fe ∧ tau 0x01234567 = 0x90f473a2

/-- 40 R105, an inference the spec marks as its own: L and L′ are linear over XOR and commute with every rotation. -/
def Obligations.DiffusionIsLinearAndCommutesWithRotation : Prop :=
  ∀ (a b : Word) (n : Nat),
    diffusionL (a ^^^ b) = diffusionL a ^^^ diffusionL b ∧
    diffusionLPrime (a ^^^ b) = diffusionLPrime a ^^^ diffusionLPrime b ∧
    diffusionL (rotl32 a n) = rotl32 (diffusionL a) n ∧
    diffusionLPrime (rotl32 a n) = rotl32 (diffusionLPrime a) n

/-- R103 and R104: the formulas of L and L′ with their rotation amounts, their corner cases and examples. -/
def Obligations.DiffusionFormulasAndCornerCases : Prop :=
  (∀ b : Word, diffusionL b = b ^^^ rotl32 b 2 ^^^ rotl32 b 10 ^^^ rotl32 b 18 ^^^ rotl32 b 24) ∧
  (∀ b : Word, diffusionLPrime b = b ^^^ rotl32 b 13 ^^^ rotl32 b 23) ∧
  diffusionL 0 = 0 ∧ diffusionL 0xffffffff = 0xffffffff ∧ diffusionL 0x00000001 = 0x01040405 ∧
  diffusionL 0x80000000 = 0x80820202 ∧ diffusionL 0x12345678 = 0xaa4e9357 ∧
  diffusionLPrime 0 = 0 ∧ diffusionLPrime 0xffffffff = 0xffffffff ∧ diffusionLPrime 0x00000001 = 0x00802001 ∧
  diffusionLPrime 0x80000000 = 0x80401000 ∧ diffusionLPrime 0x12345678 = 0xa4f24e15

/-- 40 R107, with its inference on equal bytes, and R108: T is L after τ and T′ is L′ after τ, with their corner cases and examples; T takes a word of four equal
bytes to a word of four equal bytes. -/
def Obligations.CompositeTransforms : Prop :=
  (∀ x : Word, transformT x = diffusionL (tau x) ∧ transformTPrime x = diffusionLPrime (tau x)) ∧
  (∀ b : Byte, ∃ c : Byte, transformT (wordOfBytes b b b b) = wordOfBytes c c c c) ∧
  transformT 0x00000000 = 0x5b5b5b5b ∧ transformT 0xffffffff = 0x21212121 ∧
  transformT 0x00010203 = 0x96597ff5 ∧ transformT 0x01234567 = 0x6ef180c9 ∧
  transformTPrime 0x00000000 = 0x67676767 ∧ transformTPrime 0xffffffff = 0x65656565 ∧
  transformTPrime 0x00010203 = 0x34c47b58 ∧ transformTPrime 0x01234567 = 0xcfc85b85

/-! ### The command word (30_encoding) -/

/-- R80: a command word is its seven fields, in the order RSV2, LB, RSV1, LA, RSV0, V, OP from the top. -/
def Obligations.CommandWordIsItsFields : Prop :=
  ∀ w : Word,
    rsv2Field w ++ lbField w ++ rsv1Field w ++ laField w ++ rsv0Field w ++ vField w ++ opField w = w

/-- The six canonical words of the table of R87 decode to their commands with the legal lengths. -/
def Obligations.CanonicalWordsDecode : Prop :=
  decode 0x00000401 = .ok (.keygen 4) ∧ decode 0x00200402 = .ok (.encD 4 32) ∧
  decode 0x00200412 = .ok (.encT 4 32) ∧ decode 0x00200403 = .ok (.decD 4 32) ∧
  decode 0x00200413 = .ok (.decT 4 32) ∧ decode 0x00000004 = .ok .tinit

/-- R87: exactly six command patterns are legal. A word decodes to a row of the table exactly when `w & mask == match`, with
LA and LB taken from the word; a word that matches no row decodes to nothing; the canonical words decode with the legal
lengths, and each of them succeeds (the two of the table variant once TV = 1, R28). -/
def Obligations.DecoderFollowsTheMatchAndMaskTable : Prop :=
  (∀ w : Word,
    (decode w = .ok (.keygen (laField w).toNat) ↔ w &&& 0xFFFFC0FF = 0x00000001) ∧
    (decode w = .ok (.encD (laField w).toNat (lbField w).toNat) ↔ w &&& 0xFFC0C0FF = 0x00000002) ∧
    (decode w = .ok (.encT (laField w).toNat (lbField w).toNat) ↔ w &&& 0xFFC0C0FF = 0x00000012) ∧
    (decode w = .ok (.decD (laField w).toNat (lbField w).toNat) ↔ w &&& 0xFFC0C0FF = 0x00000003) ∧
    (decode w = .ok (.decT (laField w).toNat (lbField w).toNat) ↔ w &&& 0xFFC0C0FF = 0x00000013) ∧
    (decode w = .ok .tinit ↔ w &&& 0xFFFFFFFF = 0x00000004) ∧
    ((∃ i, decode w = .ok i) ↔
      w &&& 0xFFFFC0FF = 0x00000001 ∨ w &&& 0xFFC0C0FF = 0x00000002 ∨ w &&& 0xFFC0C0FF = 0x00000012 ∨
      w &&& 0xFFC0C0FF = 0x00000003 ∨ w &&& 0xFFC0C0FF = 0x00000013 ∨ w &&& 0xFFFFFFFF = 0x00000004)) ∧
  decode 0x00000401 = .ok (.keygen 4) ∧ decode 0x00200402 = .ok (.encD 4 32) ∧
  decode 0x00200412 = .ok (.encT 4 32) ∧ decode 0x00200403 = .ok (.decD 4 32) ∧
  decode 0x00200413 = .ok (.decT 4 32) ∧ decode 0x00000004 = .ok .tinit ∧
  ∀ s : State,
    (∀ w ∈ [0x00000401#32, 0x00200402#32, 0x00200403#32, 0x00000004#32],
      ∃ t, issue w s = .next t ∧ t.core.err = 0x0) ∧
    (s.core.tv = true → ∀ w ∈ [0x00200412#32, 0x00200413#32], ∃ t, issue w s = .next t ∧ t.core.err = 0x0)

/-- No two rows of the table of 30 R87 match one word (an inference the rule marks as its own), and the decoder gives a word
the row it matches: a word matches the row of a command exactly when it decodes to a command of that row. -/
def Obligations.NoTwoRowsMatchOneWord : Prop :=
  ∀ (w : Word) (i : Instr),
    (∀ j : Instr, i.row.matchedBy w → j.row.matchedBy w → i.row = j.row) ∧
    (i.row.matchedBy w ↔ ∃ k, decode w = .ok k ∧ k.row = i.row)

/-- Decoding the encoding of a well-formed command gives the command back, for every command and every length the fields
admit. -/
def Obligations.DecodeOfEncodeIsTheCommand : Prop :=
  ∀ i : Instr, i.wellFormed = true → decode (encode i) = .ok i

/-- Each command word has one meaning: what a word decodes to is well formed and encodes to that word. -/
def Obligations.EncodeOfDecodeIsTheWord : Prop :=
  ∀ (w : Word) (i : Instr), decode w = .ok i → i.wellFormed = true ∧ encode i = w

/-- R89: a word is illegal exactly in the listed cases; issuing an illegal word sets ERR to ILLEGAL_COMMAND and changes
nothing else; a word that matches a row with an illegal length raises INVALID_LENGTH. -/
def Obligations.IllegalWordsChangeOnlyErr : Prop :=
  ∀ (w : Word),
    let illegal : Prop :=
      w.extractLsb' 0 4 = 0x0 ∨ 0x5 ≤ (w.extractLsb' 0 4).toNat ∨
      w.extractLsb' 5 3 ≠ 0 ∨ w.extractLsb' 14 2 ≠ 0 ∨ w.extractLsb' 22 10 ≠ 0 ∨
      (w.extractLsb' 4 1 = 1 ∧ (w.extractLsb' 0 4 = 0x1 ∨ w.extractLsb' 0 4 = 0x4)) ∨
      (w.extractLsb' 16 6 ≠ 0 ∧ w.extractLsb' 0 4 = 0x1) ∨
      ((w.extractLsb' 8 6 ≠ 0 ∨ w.extractLsb' 16 6 ≠ 0) ∧ w.extractLsb' 0 4 = 0x4)
    ((∃ e, decode w = .error e) ↔ illegal) ∧
    (illegal → ∀ s : State, issue w s = .next { s with core := { s.core with err := 0x3 } }) ∧
    (¬ illegal → w.extractLsb' 0 4 ≠ 0x4 →
      (w.extractLsb' 8 6 ≠ 4 ∨ (w.extractLsb' 0 4 ≠ 0x1 ∧ w.extractLsb' 16 6 ≠ 32)) →
      ∀ s : State, issue w s = .next { s with core := { s.core with err := 0x1 } })

/-- R90: `issue(w)`, line by line as the rule's pseudocode has it, over the raw fields of the word. -/
def Obligations.IssueFollowsItsPseudocode : Prop :=
  ∀ (w : Word) (s : State),
    let op := w.extractLsb' 0 4
    let v := w.extractLsb' 4 1
    let la := w.extractLsb' 8 6
    let lb := w.extractLsb' 16 6
    let raise : BitVec 4 → CoreState := fun c => { s.core with err := c }
    let result : CoreState :=
      if w.extractLsb' 5 3 ≠ 0 ∨ w.extractLsb' 14 2 ≠ 0 ∨ w.extractLsb' 22 10 ≠ 0 then raise 0x3
      else if op = 0x1 then
        if v ≠ 0 ∨ lb ≠ 0 then raise 0x3
        else if la ≠ 4 then raise 0x1
        else { s.core with rk := keySchedule s.core.key, err := 0x0 }
      else if op = 0x2 ∨ op = 0x3 then
        if la ≠ 4 ∨ lb ≠ 32 then raise 0x1
        else if v = 1 ∧ s.core.tv = false then raise 0x2
        else
          let out := crypt s.core.tbl s.core.blk s.core.rk (if op = 0x2 then .encrypt else .decrypt)
            (if v = 0 then .direct else .table)
          { s.core with blk := out, err := 0x0 }
      else if op = 0x4 then
        if v ≠ 0 ∨ la ≠ 0 ∨ lb ≠ 0 then raise 0x3
        else { s.core with tbl := buildTables, tv := true, err := 0x0 }
      else raise 0x3
    issue w s = .next { s with core := result }

/-- R92: the expansion of every command mnemonic, with lengths from 0 to 63; a larger length is refused. -/
def Obligations.MnemonicsExpandToTheirWords : Prop :=
  HostStmt.keygen.assemble = some [.write 4 0x020 0x00000401] ∧
  HostStmt.encD.assemble = some [.write 4 0x020 0x00200402] ∧
  HostStmt.encT.assemble = some [.write 4 0x020 0x00200412] ∧
  HostStmt.decD.assemble = some [.write 4 0x020 0x00200403] ∧
  HostStmt.decT.assemble = some [.write 4 0x020 0x00200413] ∧
  HostStmt.tinit.assemble = some [.write 4 0x020 0x00000004] ∧
  HostStmt.enc = HostStmt.encD ∧ HostStmt.dec = HostStmt.decD ∧
  (∀ n : Nat, n ≤ 63 →
    (HostStmt.command (.keygen n)).assemble = some [.write 4 0x020 (BitVec.ofNat 32 ((n <<< 8) ||| 0x1))]) ∧
  (∀ n m : Nat, n ≤ 63 → m ≤ 63 →
    (HostStmt.command (.encD n m)).assemble =
      some [.write 4 0x020 (BitVec.ofNat 32 (m <<< 16 ||| n <<< 8 ||| 0 <<< 4 ||| 0x2))] ∧
    (HostStmt.command (.encT n m)).assemble =
      some [.write 4 0x020 (BitVec.ofNat 32 (m <<< 16 ||| n <<< 8 ||| 1 <<< 4 ||| 0x2))] ∧
    (HostStmt.command (.decD n m)).assemble =
      some [.write 4 0x020 (BitVec.ofNat 32 (m <<< 16 ||| n <<< 8 ||| 0 <<< 4 ||| 0x3))] ∧
    (HostStmt.command (.decT n m)).assemble =
      some [.write 4 0x020 (BitVec.ofNat 32 (m <<< 16 ||| n <<< 8 ||| 1 <<< 4 ||| 0x3))]) ∧
  (∀ n m : Nat, 63 < n ∨ 63 < m →
    (HostStmt.command (.encD n m)).assemble = none ∧ (HostStmt.command (.encT n m)).assemble = none ∧
    (HostStmt.command (.decD n m)).assemble = none ∧ (HostStmt.command (.decT n m)).assemble = none) ∧
  (∀ n : Nat, 63 < n → (HostStmt.command (.keygen n)).assemble = none) ∧
  (∀ w : Word, (HostStmt.cmd w).assemble = some [.write 4 0x020 w]) ∧
  (∀ a b c d : Word,
    (HostStmt.ldkey a b c d).assemble =
      some [.write 4 0x000 a, .write 4 0x004 b, .write 4 0x008 c, .write 4 0x00C d] ∧
    (HostStmt.ldblk a b c d).assemble =
      some [.write 4 0x010 a, .write 4 0x014 b, .write 4 0x018 c, .write 4 0x01C d])

/-- The assembler reads each form of 30 R91 and R92 from its text: the two access statements with a register or an offset,
comments, both kinds of literal, `repeat`, and every mnemonic; it refuses a length over 63 and a literal over 2³² − 1. -/
def Obligations.AssemblerReadsEveryForm : Prop :=
  assembleText ["wr KEY3, 0x01234567 ; a comment", "", "rd STATUS", "wr @0x20, 4294967295", "rd @0xfc"] =
    some [.write 4 0x00C 0x01234567, .read 4 0x024, .write 4 0x020 0xffffffff, .read 4 0x0FC] ∧
  assembleText ["keygen", "enc.d", "enc.t", "dec.d", "dec.t", "tinit", "enc", "dec", "cmd 0x00000005"] =
    some [.write 4 0x020 0x00000401, .write 4 0x020 0x00200402, .write 4 0x020 0x00200412,
      .write 4 0x020 0x00200403, .write 4 0x020 0x00200413, .write 4 0x020 0x00000004,
      .write 4 0x020 0x00200402, .write 4 0x020 0x00200403, .write 4 0x020 0x00000005] ∧
  assembleText ["keygen la=3", "enc.d la=4, lb=31", "enc.t la=3, lb=32", "dec.d la=63, lb=63", "dec.t la=0, lb=0"] =
    some [.write 4 0x020 0x00000301, .write 4 0x020 0x001f0402, .write 4 0x020 0x00200312,
      .write 4 0x020 0x003f3f03, .write 4 0x020 0x00000013] ∧
  assembleText ["ldkey 1, 2, 3, 4", "ldblk 5, 6, 7, 8"] =
    some [.write 4 0x000 1, .write 4 0x004 2, .write 4 0x008 3, .write 4 0x00C 4,
      .write 4 0x010 5, .write 4 0x014 6, .write 4 0x018 7, .write 4 0x01C 8] ∧
  assembleText ["repeat 2 " ++ openBrace, "  rd RK31", closeBrace] = some [.read 4 0x0FC, .read 4 0x0FC] ∧
  assembleText ["keygen la=64"] = none ∧ assembleText ["enc.d la=4, lb=64"] = none ∧
  assembleText ["cmd 4294967296"] = none

/-! ### KEYGEN (41_key_schedule) -/

/-- R134: the schedule is K[4..35] of every buffer K that the rule's equations describe. -/
def Obligations.KeyScheduleMeetsItsRecurrence : Prop :=
  ∀ (key : Vector Word 4) (K : Nat → Word),
    (∀ j : Fin 4, K j = key[j] ^^^ Config.fk[j]) →
    IsExpansion transformTPrime (wordAt Config.ck) K →
    ∀ i : Fin 32, (keySchedule key)[i] = K (i + 4)

/-- KEYGEN with the legal length answers a next state from every state, whatever TV is: RK is K[4..35] of an expansion
buffer K of KEY by the equations of R134, ERR is OK, and KEY, BLK, TBL, TV and the host port are unchanged (41 R133; the
frame is 41 R136, an inference the spec marks as its own). -/
def Obligations.KeygenWritesOnlyRoundKeysAndErr : Prop :=
  ∀ s : State, ∃ t, exec (.keygen 4) s = .next t ∧
    (∃ K : Nat → Word, (∀ j : Fin 4, K j = s.core.key[j] ^^^ Config.fk[j]) ∧
      IsExpansion transformTPrime (wordAt Config.ck) K ∧ ∀ i : Fin 32, t.core.rk[i] = K (i + 4)) ∧
    t.core.err = 0x0 ∧
    t.core.key = s.core.key ∧ t.core.blk = s.core.blk ∧ t.core.tbl = s.core.tbl ∧ t.core.tv = s.core.tv ∧
    t.pending = s.pending ∧ t.reply = s.reply ∧ t.drawn = s.drawn

/-- R131: KEYGEN answers a next state whatever the rest of the state is, and the schedule it leaves is a function of KEY alone. -/
def Obligations.KeyScheduleDependsOnKeyAlone : Prop :=
  ∀ s s' : State, s.core.key = s'.core.key →
    ∃ t t', exec (.keygen 4) s = .next t ∧ exec (.keygen 4) s' = .next t' ∧ t.core.rk = t'.core.rk

/-- KEYGEN of the all-zero key, of the key of 95 V-KS1 and of the key FK: the values 41 R133 gives. -/
def Obligations.KeygenCornerCases : Prop :=
  (keySchedule (tabulate 4 fun _ => 0))[0] = 0x45603b23 ∧
  keySeed Config.fk = ⟨0, 0, 0, 0⟩ ∧
  (let rk := keySchedule ⟨#[0x01234567, 0x89abcdef, 0xfedcba98, 0x76543210], rfl⟩
   rk[0] = 0xf12186f9 ∧ rk[1] = 0x41662b61 ∧ rk[31] = 0x9124a012)

/-- 41 R138 (an inference the spec marks as its own) and 43 R184: KEYGEN and TINIT performed n + 1 times leave the state that one leaves. -/
def Obligations.KeygenAndTinitAreIdempotent : Prop :=
  ∀ (n : Nat) (s : State),
    (∃ t, exec (.keygen 4) s = .next t ∧ execTimes (.keygen 4) (n + 1) s = .next t) ∧
    ∃ t, exec .tinit s = .next t ∧ execTimes .tinit (n + 1) s = .next t

/-! ### ENC and DEC (42_round_engine) -/

/-- R153: Crypt returns (X[35], X[34], X[33], X[32]) of every buffer X that the rule's equations describe, for both
directions and both variants. -/
def Obligations.CryptMeetsItsRecurrence : Prop :=
  ∀ (tbl : Vector (Vector Word 256) 4) (blk : Vector Word 4) (rk : Vector Word 32) (X : Nat → Word) (var : Variant),
    (∀ j : Fin 4, X j = blk[j]) →
    (IsExpansion (roundTransform tbl var) (fun i => wordAt rk i) X →
      ∀ j : Fin 4, (crypt tbl blk rk .encrypt var)[j] = X (35 - j)) ∧
    (IsExpansion (roundTransform tbl var) (fun i => wordAt rk (31 - i)) X →
      ∀ j : Fin 4, (crypt tbl blk rk .decrypt var)[j] = X (35 - j))

/-- R162 and R154: ENC.D and DEC.D with the legal lengths, from every state, whatever TV is, and ENC.T and DEC.T with the
legal lengths from every state with TV = 1, answer a next state: BLK holds the last four words, in reverse order, of an
expansion X of the old BLK by the recurrence of R151, ERR is OK, and KEY, RK, TBL, TV and the host port are unchanged. -/
def Obligations.CryptCommandsWriteOnlyBlockAndErr : Prop :=
  ∀ s : State,
    let runs : Instr → (Word → Word) → (Nat → Word) → Prop := fun i F k => ∃ t, exec i s = .next t ∧
      (∃ X : Nat → Word, (∀ j : Fin 4, X j = s.core.blk[j]) ∧ IsExpansion F k X ∧
        ∀ j : Fin 4, t.core.blk[j] = X (35 - j)) ∧
      t.core.err = 0x0 ∧
      t.core.key = s.core.key ∧ t.core.rk = s.core.rk ∧ t.core.tbl = s.core.tbl ∧ t.core.tv = s.core.tv ∧
      t.pending = s.pending ∧ t.reply = s.reply ∧ t.drawn = s.drawn
    runs (.encD 4 32) transformT (fun i => wordAt s.core.rk i) ∧
    runs (.decD 4 32) transformT (fun i => wordAt s.core.rk (31 - i)) ∧
    (s.core.tv = true → runs (.encT 4 32) (ttab s.core.tbl) (fun i => wordAt s.core.rk i)) ∧
    (s.core.tv = true → runs (.decT 4 32) (ttab s.core.tbl) (fun i => wordAt s.core.rk (31 - i)))

/-- The published vector (42 R155, R156; 95 V-KAT1) and the all-zero block under the all-zero key. -/
def Obligations.KnownAnswerVector : Prop :=
  let kat : Vector Word 4 := ⟨#[0x01234567, 0x89abcdef, 0xfedcba98, 0x76543210], rfl⟩
  let ct : Vector Word 4 := ⟨#[0x681edf34, 0xd206965e, 0x86b3e94f, 0x536e4246], rfl⟩
  let zero : Vector Word 4 := ⟨#[0, 0, 0, 0], rfl⟩
  crypt buildTables kat (keySchedule kat) .encrypt .direct = ct ∧
  crypt buildTables ct (keySchedule kat) .decrypt .direct = kat ∧
  crypt buildTables zero (keySchedule zero) .encrypt .direct =
    ⟨#[0x9f1f7bff, 0x6f551138, 0x4d943053, 0x1e538fd3], rfl⟩

/-- R159: decrypting what was encrypted under the same 32 words gives the block back, for every block, every 32 words and
every pair of variants, with valid tables whenever one of the two is the table variant. -/
def Obligations.DecryptUndoesEncrypt : Prop :=
  ∀ (tbl : Vector (Vector Word 256) 4) (P : Vector Word 4) (rk : Vector Word 32) (var var' : Variant),
    (var = .table ∨ var' = .table → tbl = buildTables) →
    crypt tbl (crypt tbl P rk .encrypt var) rk .decrypt var' = P

/-- On the machine: from any state that meets the invariant, an ENC that succeeds followed by a DEC leaves every register
as it was, with ERR = OK; in either variant once TV = 1, in the direct variant always. -/
def Obligations.EncThenDecRestoresTheMachine : Prop :=
  ∀ s : State, MachineInv s →
    let restores : Instr → Instr → Prop := fun e d =>
      ∃ t, exec e s = .next t ∧ exec d t = .next { s with core := { s.core with err := 0x0 } }
    restores (.encD 4 32) (.decD 4 32) ∧
    (s.core.tv = true →
      restores (.encT 4 32) (.decT 4 32) ∧ restores (.encD 4 32) (.decT 4 32) ∧
      restores (.encT 4 32) (.decD 4 32))

/-- 42 R166, an inference the spec marks as its own: decryption is encryption with the schedule reversed. -/
def Obligations.DecryptIsEncryptWithReversedSchedule : Prop :=
  ∀ (tbl : Vector (Vector Word 256) 4) (P : Vector Word 4) (rk rev : Vector Word 32) (var : Variant),
    (∀ i : Fin 32, rev[i] = wordAt rk (31 - i)) →
    crypt tbl P rk .decrypt var = crypt tbl P rev .encrypt var

/-- 42 R160, an inference the spec marks as its own: with valid tables the two variants give the same block, and once TV = 1 the commands of the two variants do the
same to every state that meets the invariant, with legal lengths or not. -/
def Obligations.VariantsAreEquivalent : Prop :=
  (∀ (blk : Vector Word 4) (rk : Vector Word 32) (dir : Direction),
    crypt buildTables blk rk dir .table = crypt buildTables blk rk dir .direct) ∧
  ∀ (s : State) (la lb : Nat), MachineInv s → s.core.tv = true →
    exec (.encT la lb) s = exec (.encD la lb) s ∧ exec (.decT la lb) s = exec (.decD la lb) s

/-! ### TINIT and the tables (43_table_transform) -/

/-- TINIT answers a next state from every state: the four tables hold the contents of 43 R181, whose rotations are right
rotations (90 C1, 92 D17; log 10), TV = 1 and ERR = OK (43 R183); KEY, BLK, RK and the host port are unchanged (43 R187). -/
def Obligations.TinitBuildsTheTables : Prop :=
  ∀ s : State, ∃ t, exec .tinit s = .next t ∧
    (∀ b : Byte,
      let base := diffusionL ((sboxS b).setWidth 32 <<< 24)
      tableRead t.core.tbl 0 b = base ∧ tableRead t.core.tbl 1 b = rotl32 base 24 ∧
      tableRead t.core.tbl 2 b = rotl32 base 16 ∧ tableRead t.core.tbl 3 b = rotl32 base 8 ∧
      ∀ k : Fin 4, tableRead t.core.tbl k b = rotr32 base (8 * k)) ∧
    t.core.tv = true ∧ t.core.err = 0x0 ∧
    t.core.key = s.core.key ∧ t.core.blk = s.core.blk ∧ t.core.rk = s.core.rk ∧
    t.pending = s.pending ∧ t.reply = s.reply ∧ t.drawn = s.drawn

/-- Every table entry is the L-image of S(b) placed in byte lane 3 − k (43 R181, an inference the rule marks as its own). -/
def Obligations.TableEntryIsTheImageOfOneLane : Prop :=
  ∀ (k : Fin 4) (b : Byte), tableRead buildTables k b = diffusionL ((sboxS b).setWidth 32 <<< (24 - 8 * k.val))

/-- R186: with the tables of R182, Ttab(v) = T(v) for every 32-bit v. -/
def Obligations.TableTransformEqualsT : Prop :=
  ∀ v : Word, ttab buildTables v = transformT v

/-- 43 R188: two states that differ only in tables that TINIT has not built stay so, step by step, with the same replies: no
host action can observe the reset draw of TBL. -/
def Obligations.UnbuiltTablesAreUnobservable : Prop :=
  ∀ s s' t : State, SameButUnbuiltTables s s' → step s = .next t →
    ∃ t', step s' = .next t' ∧ SameButUnbuiltTables t t'

/-! ### Errors (60_exceptions) -/

/-- R203: issuing any word answers a next state; if the command failed, only ERR has changed. -/
def Obligations.FailedCommandChangesOnlyErr : Prop :=
  ∀ (w : Word) (s : State), ∃ t, issue w s = .next t ∧
    (t.core.err ≠ 0x0 → t.core = { s.core with err := t.core.err }) ∧
    t.pending = s.pending ∧ t.reply = s.reply ∧ t.drawn = s.drawn

/-- R200 and R204: the code a command leaves is the first that applies of ILLEGAL_COMMAND, INVALID_LENGTH and
NOT_INITIALIZED, and OK if none applies. -/
def Obligations.FirstErrorInPriorityOrderIsReported : Prop :=
  ∀ (w : Word) (s : State), ∃ t, issue w s = .next t ∧
    t.core.err =
      (if (decode w).toOption = none then 0x3
       else if opField w ≠ 0x4 ∧ (laField w ≠ 4 ∨ (opField w ≠ 0x1 ∧ lbField w ≠ 32)) then 0x1
       else if (opField w = 0x2 ∨ opField w = 0x3) ∧ vField w = 1 ∧ s.core.tv = false then 0x2
       else 0x0)

/-- 60 R200, by command: a wrong declared length, and the table variant before TINIT, write ERR and nothing else. -/
def Obligations.CommandErrorsByCommand : Prop :=
  ∀ (s : State) (la lb : Nat),
    let err : BitVec 4 → Host.Outcome State Fault Refusal := fun e => .next { s with core := { s.core with err := e } }
    (la ≠ 4 → exec (.keygen la) s = err 0x1) ∧
    (la ≠ 4 ∨ lb ≠ 32 →
      exec (.encD la lb) s = err 0x1 ∧ exec (.encT la lb) s = err 0x1 ∧
      exec (.decD la lb) s = err 0x1 ∧ exec (.decT la lb) s = err 0x1) ∧
    (s.core.tv = false → exec (.encT 4 32) s = err 0x2 ∧ exec (.decT 4 32) s = err 0x2)

/-- 60 R215, an inference the spec marks as its own: a step answers a next state unless the next host action is an access the core does not answer: then it is
HostBusError at that access's offset, or (93 U5; log 6) the refusal of an offset outside the window. -/
def Obligations.StepOutcomes : Prop :=
  ∀ s : State,
    (∃ t, step s = .next t) ∨
    (∃ off, step s = .fault (.hostBusError off) ∧ off < 0x100 ∧
      ((∃ n rest, s.pending = .read n off :: rest) ∨ ∃ n v rest, s.pending = .write n off v :: rest)) ∨
    (∃ off, step s = .refused (.outsideWindow off) ∧ 0x100 ≤ off ∧
      ((∃ n rest, s.pending = .read n off :: rest) ∨ ∃ n v rest, s.pending = .write n off v :: rest))

/-- When every pending host action is one the core answers, a step answers a next state that has performed the first of them
and has the others pending, all still answered; with none pending it stays so. This rests on 60 R215, an inference the spec
marks as its own, on the model's holding the host's program in the state (log 3), and on its reading of the idle core
(log 5). -/
def Obligations.AnsweredActionsStepToTheRest : Prop :=
  ∀ s : State, SafeProgram s.pending →
    ∃ t, step s = .next t ∧ t.pending = s.pending.tail ∧ SafeProgram t.pending

/-- A program of accesses the core answers never stops: after any number of steps the machine is in a next state, that many
host actions have been performed, and after as many steps as there are actions none is pending. This rests on 60 R215, an
inference the spec marks as its own, and 42 R165, on the model's holding the host's program in the state (log 3), and, past
the end of the program, on its reading of the idle core (log 5). -/
def Obligations.AnsweredProgramsRunToTheirEnd : Prop :=
  ∀ (s : State) (k : Nat), SafeProgram s.pending →
    ∃ t, Host.Core.run Sys2Proof.core k s = .next t ∧ t.pending = s.pending.drop k

/-! ### Host accesses (20_memory, 10_state) -/

/-- R53: a word read of each mapped offset returns the register's value and changes no core state. -/
def Obligations.ReadReturnsTheRegister : Prop :=
  ∀ (s : State) (rest : List HostAction),
    let returns : Nat → Word → Prop := fun off v =>
      s.pending = .read 4 off :: rest → step s = .next { s with pending := rest, reply := some v }
    (∀ i : Fin 4, returns (4 * i) s.core.key[i]) ∧
    (∀ i : Fin 4, returns (0x010 + 4 * i) s.core.blk[i]) ∧
    returns 0x020 0x00000000 ∧
    returns 0x024 ((BitVec.ofBool s.core.tv).setWidth 32 <<< 8 ||| s.core.err.setWidth 32) ∧
    ∀ i : Fin 32, returns (0x080 + 4 * i) s.core.rk[i]

/-- R52 and R56: a word write to KEY[i] or BLK[i] stores that word and no other, a write to CMD issues the word, and a write
to STATUS or RK[i] changes nothing of the core. -/
def Obligations.WriteStoresOneWordOrIsIgnored : Prop :=
  ∀ (s : State) (rest : List HostAction) (v : Word),
    let s₀ : State := { s with pending := rest, reply := none }
    (∀ i : Fin 4, s.pending = .write 4 (4 * i) v :: rest →
      ∃ t, step s = .next t ∧ (∀ j : Fin 4, t.core.key[j] = if j = i then v else s.core.key[j]) ∧
        t = { s₀ with core := { s.core with key := t.core.key } }) ∧
    (∀ i : Fin 4, s.pending = .write 4 (0x010 + 4 * i) v :: rest →
      ∃ t, step s = .next t ∧ (∀ j : Fin 4, t.core.blk[j] = if j = i then v else s.core.blk[j]) ∧
        t = { s₀ with core := { s.core with blk := t.core.blk } }) ∧
    (s.pending = .write 4 0x020 v :: rest → step s = issue v s₀) ∧
    (s.pending = .write 4 0x024 v :: rest → step s = .next s₀) ∧
    ∀ i : Fin 32, s.pending = .write 4 (0x080 + 4 * i) v :: rest → step s = .next s₀

/-- A read or a write inside the window raises HostBusError(off) exactly when it is not one word wide (20 R54), not
word-aligned (20 R57, R62), or at an offset from 0x028 to 0x07F (20 R57). That an access at an offset of 0x100 or more is
never a bus error, whatever its width, is the model's choice (93 U5; log 6). -/
def Obligations.BusErrorExactlyOnBadAccesses : Prop :=
  ∀ (s : State) (rest : List HostAction) (n off : Nat) (v : Word),
    let bad : Prop := off < 0x100 ∧ (n ≠ 4 ∨ off % 4 ≠ 0 ∨ (0x028 ≤ off ∧ off ≤ 0x07F))
    (s.pending = .read n off :: rest → (step s = .fault (.hostBusError off) ↔ bad)) ∧
    (s.pending = .write n off v :: rest → (step s = .fault (.hostBusError off) ↔ bad))

/-- The model's choice for 93 U5 (log 6): an access at an offset of 0x100 or more is refused, whatever its width. -/
def Obligations.AccessOutsideTheWindowIsRefused : Prop :=
  ∀ (s : State) (rest : List HostAction) (n off : Nat) (v : Word), 0x100 ≤ off →
    (s.pending = .read n off :: rest → step s = .refused (.outsideWindow off)) ∧
    (s.pending = .write n off v :: rest → step s = .refused (.outsideWindow off))

/-- R26: STATUS reads ERR in bits 3:0, TV in bit 8 and 0 everywhere else, and a write to it is ignored. -/
def Obligations.StatusLayout : Prop :=
  (∀ c : CoreState,
    (readReg .status c).extractLsb' 0 4 = c.err ∧ (readReg .status c).extractLsb' 4 4 = 0 ∧
    (readReg .status c).getLsbD 8 = c.tv ∧ (readReg .status c).extractLsb' 9 23 = 0 ∧
    readReg .status c = (BitVec.ofBool c.tv).setWidth 32 <<< 8 ||| c.err.setWidth 32) ∧
  (∀ (v : Word) (s : State), writeReg .status v s = .next s) ∧
  State.reset.core.tv = false ∧ State.reset.core.err = 0

/-- In every state that meets the invariant a read of STATUS gives no bit outside 0x103. -/
def Obligations.StatusReadsOnlyDefinedBits : Prop :=
  ∀ s : State, MachineInv s → readReg .status s.core &&& ~~~ 0x00000103 = 0

/-- 20 R68, its last sentence for KEY and BLK: a word read right after a word write to a KEY or BLK register returns the word written, and any other KEY, BLK or RK
register still reads what it read before. -/
def Obligations.ReadAfterWrite : Prop :=
  ∀ (s : State) (rest : List HostAction) (r q : Reg) (v : Word),
    (∃ i, r = .key i ∨ r = .blk i) → q ≠ .cmd → q ≠ .status →
    s.pending = .write 4 r.offset v :: .read 4 q.offset :: rest →
    ∃ t, Host.Core.run Sys2Proof.core 2 s = .next t ∧ t.pending = rest ∧
      t.reply = some (if q = r then v else readReg q s.core)

/-! ### What changes each piece of state (10_state) -/

/-- 10 R21 and R22, as changes: a step that changes KEY[i] is a reset or a host write to KEY[i] of the value it then holds; a
step that changes BLK[i] is a reset, such a write to BLK[i], or a command word of ENC or DEC. -/
def Obligations.WhatChangesKeyAndBlock : Prop :=
  ∀ s t : State, step s = .next t → ∀ i : Fin 4,
    (t.core.key[i] ≠ s.core.key[i] → Resets s ∨ Writes s (.key i) t.core.key[i]) ∧
    (t.core.blk[i] ≠ s.core.blk[i] → Resets s ∨ Writes s (.blk i) t.core.blk[i] ∨
      Issues s 0x00200402 ∨ Issues s 0x00200412 ∨ Issues s 0x00200403 ∨ Issues s 0x00200413)

/-- R23 and R137: RK changes only in a reset or in a successful KEYGEN, whose word is 0x00000401, and then it is the schedule
of KEY, all 32 words at once; no host write to KEY or RK changes it. -/
def Obligations.WhatChangesRoundKeys : Prop :=
  ∀ s t : State, step s = .next t → t.core.rk ≠ s.core.rk →
    Resets s ∨ (Issues s 0x00000401 ∧ t.core.rk = keySchedule s.core.key ∧ t.core.err = 0x0)

/-- 10 R28 and R33, as changes: TV and TBL change only in a reset or in TINIT, whose word is 0x00000004; so TV, once 1, stays 1 until the
next reset, and a TINIT always leaves TV = 1. -/
def Obligations.WhatChangesTheTables : Prop :=
  ∀ s t : State, step s = .next t →
    (t.core.tbl ≠ s.core.tbl → Resets s ∨ Issues s 0x00000004) ∧
    (t.core.tv ≠ s.core.tv → Resets s ∨ Issues s 0x00000004) ∧
    (Resets s → t.core.tv = false) ∧
    (Issues s 0x00000004 → t.core.tv = true ∧ t.core.tbl = buildTables) ∧
    (s.core.tv = true → ¬ Resets s → t.core.tv = true)

/-- 10 R27, as changes: only a command changes ERR (or a reset); a read of STATUS does not; and every command writes it, with 0 or with
the code of an error. -/
def Obligations.WhatChangesErr : Prop :=
  ∀ s t : State, step s = .next t →
    (t.core.err ≠ s.core.err → Resets s ∨ ∃ w, Issues s w) ∧
    ((∃ w, Issues s w) → t.core.err = 0x0 ∨ t.core.err = 0x1 ∨ t.core.err = 0x2 ∨ t.core.err = 0x3) ∧
    (∀ rest, s.pending = .read 4 0x024 :: rest → t.core = s.core)

/-! ### Reset, idling and steps (70_reset, 30_encoding) -/

/-- 10 R37, the two values the spec gives: after reset TV = 0 and ERR = 0 (OK), so STATUS reads 0. -/
def Obligations.ResetClearsTvAndErr : Prop :=
  State.reset.core.tv = false ∧ State.reset.core.err = 0x0 ∧ readReg .status State.reset.core = 0x00000000 ∧
  ∀ (s : State) (rest : List HostAction), s.pending = .reset :: rest →
    ∃ t, step s = .next t ∧ t.core.tv = false ∧ t.core.err = 0x0 ∧ readReg .status t.core = 0x00000000

/-- The model's form of the reset draw (log 1, 2): after a reset KEY, BLK, RK and TBL hold consecutive draws of RESET_DRAW,
none of which was used before, and the rest of the host's program stays. -/
def Obligations.ResetTakesFreshDraws : Prop :=
  ∀ (s : State) (rest : List HostAction), s.pending = .reset :: rest →
    ∃ t, step s = .next t ∧
      (∀ i : Fin 4, t.core.key[i] = Config.resetDraw (s.drawn + i)) ∧
      (∀ i : Fin 4, t.core.blk[i] = Config.resetDraw (s.drawn + 4 + i)) ∧
      (∀ i : Fin 32, t.core.rk[i] = Config.resetDraw (s.drawn + 8 + i)) ∧
      (∀ (k : Fin 4) (b : Byte),
        tableRead t.core.tbl k b = Config.resetDraw (s.drawn + 40 + 256 * k + b.toNat)) ∧
      t.drawn = s.drawn + 1064 ∧ t.pending = rest ∧ t.reply = none

/-- 70 R231: with no host action pending the core does nothing (log 5: the model's reading). -/
def Obligations.IdleCoreDoesNothing : Prop :=
  ∀ s : State, s.pending = [] → step s = .next s

/-- A step whose next host action is a word write to CMD runs the command the word decodes to, on the state from which that
action has been taken; a word that decodes to no command runs as ILLEGAL_COMMAND; `withFetchWord` places such an action. -/
def Obligations.StepRunsTheDecodedCommand : Prop :=
  ∀ (s : State) (rest : List HostAction) (w : Word), s.pending = .write 4 0x020 w :: rest →
    (∀ i, decode w = .ok i → step s = exec i { s with pending := rest, reply := none }) ∧
    (∀ e, decode w = .error e → step s =
      .next { s with pending := rest, reply := none, core := { s.core with err := 0x3 } }) ∧
    ∀ u : State, step (u.withFetchWord 32 w.toNat) = issue w { u with reply := none }

/-! ### The invariant -/

/-- The invariant holds right after reset. -/
def Obligations.InvariantHoldsAtReset : Prop := MachineInv State.reset

/-- Every step keeps the invariant: TV = 1 only with the tables of R181 (10_state R28), and ERR holds a defined code
(60 R200). -/
def Obligations.EveryStepKeepsTheInvariant : Prop :=
  ∀ s t : State, MachineInv s → step s = .next t → MachineInv t
end

