-- ==== Sys2Proof/Laws/Bits.lean ====
section
/-! SUPPORT. Vectors by index, bytes of a word, and rotations. -/

namespace Sys2Proof.Machine

/-- An element of a tabulated vector. -/
@[simp] theorem getElem_tabulate {α : Type} {n : Nat} (f : Nat → α) (i : Nat) (h : i < n) :
    (tabulate n f)[i] = f i := by
  simp [tabulate]

/-- An array of words read inside its range. -/
theorem wordAt_eq {n : Nat} (v : Vector Word n) (i : Nat) (h : i < n) : wordAt v i = v[i] := by
  simp [wordAt, h]

/-- The bytes of a word of four bytes. -/
theorem byteAt_wordOfBytes (b3 b2 b1 b0 : Byte) :
    byteAt (wordOfBytes b3 b2 b1 b0) 3 = b3 ∧ byteAt (wordOfBytes b3 b2 b1 b0) 2 = b2 ∧
      byteAt (wordOfBytes b3 b2 b1 b0) 1 = b1 ∧ byteAt (wordOfBytes b3 b2 b1 b0) 0 = b0 := by
  refine ⟨?_, ?_, ?_, ?_⟩ <;>
  · apply BitVec.eq_of_getLsbD_eq
    intro i hi
    simp only [byteAt, wordOfBytes, BitVec.getLsbD_append, BitVec.getLsbD_extractLsb']
    interval_cases i <;> simp

/-- Rotation distributes over XOR (40 R105). -/
theorem rotl32_xor (a b : Word) (n : Nat) : rotl32 (a ^^^ b) n = rotl32 a n ^^^ rotl32 b n := by
  apply BitVec.eq_of_getLsbD_eq
  intro i hi
  simp only [rotl32, BitVec.getLsbD_rotateLeft, BitVec.getLsbD_xor]
  by_cases h : i < n % 32 <;> simp [h, hi]

/-- Bit i of a rotated word. -/
theorem rotl32_bit (a : Word) (n i : Nat) (hi : i < 32) :
    (rotl32 a n).getLsbD i = a.getLsbD ((i + (32 - n % 32)) % 32) := by
  simp only [rotl32, BitVec.getLsbD_rotateLeft]
  have hn : n % 32 < 32 := Nat.mod_lt _ (by omega)
  by_cases h : i < n % 32
  · have e : (i + (32 - n % 32)) % 32 = 32 - n % 32 + i := by omega
    simp [h, e]
  · have e : (i + (32 - n % 32)) % 32 = i - n % 32 := by omega
    simp [h, e, hi]

/-- Two rotations add up (40 R105). -/
theorem rotl32_rotl32 (a : Word) (m n : Nat) : rotl32 (rotl32 a m) n = rotl32 a (m + n) := by
  apply BitVec.eq_of_getLsbD_eq
  intro i hi
  rw [rotl32_bit _ _ _ hi, rotl32_bit _ _ _ (Nat.mod_lt _ (by omega)), rotl32_bit _ _ _ hi]
  congr 1
  omega

end Sys2Proof.Machine
end

