-- ==== Sys2Proof/Laws/State.lean ====
section
/-! SUPPORT. One lemma per field per update of the state records, each true by rfl. -/

namespace Sys2Proof.Machine

@[simp] theorem CoreState.setErr_key (e : BitVec 4) (c : CoreState) : (CoreState.setErr e c).key = c.key := rfl
@[simp] theorem CoreState.setErr_blk (e : BitVec 4) (c : CoreState) : (CoreState.setErr e c).blk = c.blk := rfl
@[simp] theorem CoreState.setErr_rk (e : BitVec 4) (c : CoreState) : (CoreState.setErr e c).rk = c.rk := rfl
@[simp] theorem CoreState.setErr_tbl (e : BitVec 4) (c : CoreState) : (CoreState.setErr e c).tbl = c.tbl := rfl
@[simp] theorem CoreState.setErr_tv (e : BitVec 4) (c : CoreState) : (CoreState.setErr e c).tv = c.tv := rfl
@[simp] theorem CoreState.setErr_err (e : BitVec 4) (c : CoreState) : (CoreState.setErr e c).err = e := rfl

@[simp] theorem CoreState.setTv_key (c : CoreState) : (CoreState.setTv c).key = c.key := rfl
@[simp] theorem CoreState.setTv_blk (c : CoreState) : (CoreState.setTv c).blk = c.blk := rfl
@[simp] theorem CoreState.setTv_rk (c : CoreState) : (CoreState.setTv c).rk = c.rk := rfl
@[simp] theorem CoreState.setTv_tbl (c : CoreState) : (CoreState.setTv c).tbl = c.tbl := rfl
@[simp] theorem CoreState.setTv_tv (c : CoreState) : (CoreState.setTv c).tv = true := rfl
@[simp] theorem CoreState.setTv_err (c : CoreState) : (CoreState.setTv c).err = c.err := rfl

@[simp] theorem CoreState.setKeyWord_key (i : Fin 4) (v : Word) (c : CoreState) : (CoreState.setKeyWord i v c).key = c.key.set i v := rfl
@[simp] theorem CoreState.setKeyWord_blk (i : Fin 4) (v : Word) (c : CoreState) : (CoreState.setKeyWord i v c).blk = c.blk := rfl
@[simp] theorem CoreState.setKeyWord_rk (i : Fin 4) (v : Word) (c : CoreState) : (CoreState.setKeyWord i v c).rk = c.rk := rfl
@[simp] theorem CoreState.setKeyWord_tbl (i : Fin 4) (v : Word) (c : CoreState) : (CoreState.setKeyWord i v c).tbl = c.tbl := rfl
@[simp] theorem CoreState.setKeyWord_tv (i : Fin 4) (v : Word) (c : CoreState) : (CoreState.setKeyWord i v c).tv = c.tv := rfl
@[simp] theorem CoreState.setKeyWord_err (i : Fin 4) (v : Word) (c : CoreState) : (CoreState.setKeyWord i v c).err = c.err := rfl

@[simp] theorem CoreState.setBlkWord_key (i : Fin 4) (v : Word) (c : CoreState) : (CoreState.setBlkWord i v c).key = c.key := rfl
@[simp] theorem CoreState.setBlkWord_blk (i : Fin 4) (v : Word) (c : CoreState) : (CoreState.setBlkWord i v c).blk = c.blk.set i v := rfl
@[simp] theorem CoreState.setBlkWord_rk (i : Fin 4) (v : Word) (c : CoreState) : (CoreState.setBlkWord i v c).rk = c.rk := rfl
@[simp] theorem CoreState.setBlkWord_tbl (i : Fin 4) (v : Word) (c : CoreState) : (CoreState.setBlkWord i v c).tbl = c.tbl := rfl
@[simp] theorem CoreState.setBlkWord_tv (i : Fin 4) (v : Word) (c : CoreState) : (CoreState.setBlkWord i v c).tv = c.tv := rfl
@[simp] theorem CoreState.setBlkWord_err (i : Fin 4) (v : Word) (c : CoreState) : (CoreState.setBlkWord i v c).err = c.err := rfl

@[simp] theorem CoreState.setBlk_key (b : Vector Word 4) (c : CoreState) : (CoreState.setBlk b c).key = c.key := rfl
@[simp] theorem CoreState.setBlk_blk (b : Vector Word 4) (c : CoreState) : (CoreState.setBlk b c).blk = b := rfl
@[simp] theorem CoreState.setBlk_rk (b : Vector Word 4) (c : CoreState) : (CoreState.setBlk b c).rk = c.rk := rfl
@[simp] theorem CoreState.setBlk_tbl (b : Vector Word 4) (c : CoreState) : (CoreState.setBlk b c).tbl = c.tbl := rfl
@[simp] theorem CoreState.setBlk_tv (b : Vector Word 4) (c : CoreState) : (CoreState.setBlk b c).tv = c.tv := rfl
@[simp] theorem CoreState.setBlk_err (b : Vector Word 4) (c : CoreState) : (CoreState.setBlk b c).err = c.err := rfl

@[simp] theorem CoreState.setRk_key (k : Vector Word 32) (c : CoreState) : (CoreState.setRk k c).key = c.key := rfl
@[simp] theorem CoreState.setRk_blk (k : Vector Word 32) (c : CoreState) : (CoreState.setRk k c).blk = c.blk := rfl
@[simp] theorem CoreState.setRk_rk (k : Vector Word 32) (c : CoreState) : (CoreState.setRk k c).rk = k := rfl
@[simp] theorem CoreState.setRk_tbl (k : Vector Word 32) (c : CoreState) : (CoreState.setRk k c).tbl = c.tbl := rfl
@[simp] theorem CoreState.setRk_tv (k : Vector Word 32) (c : CoreState) : (CoreState.setRk k c).tv = c.tv := rfl
@[simp] theorem CoreState.setRk_err (k : Vector Word 32) (c : CoreState) : (CoreState.setRk k c).err = c.err := rfl

@[simp] theorem CoreState.setTbl_key (t : Vector (Vector Word 256) 4) (c : CoreState) : (CoreState.setTbl t c).key = c.key := rfl
@[simp] theorem CoreState.setTbl_blk (t : Vector (Vector Word 256) 4) (c : CoreState) : (CoreState.setTbl t c).blk = c.blk := rfl
@[simp] theorem CoreState.setTbl_rk (t : Vector (Vector Word 256) 4) (c : CoreState) : (CoreState.setTbl t c).rk = c.rk := rfl
@[simp] theorem CoreState.setTbl_tbl (t : Vector (Vector Word 256) 4) (c : CoreState) : (CoreState.setTbl t c).tbl = t := rfl
@[simp] theorem CoreState.setTbl_tv (t : Vector (Vector Word 256) 4) (c : CoreState) : (CoreState.setTbl t c).tv = c.tv := rfl
@[simp] theorem CoreState.setTbl_err (t : Vector (Vector Word 256) 4) (c : CoreState) : (CoreState.setTbl t c).err = c.err := rfl

@[simp] theorem State.onCore_core (f : CoreState → CoreState) (s : State) : (State.onCore f s).core = f s.core := rfl
@[simp] theorem State.onCore_pending (f : CoreState → CoreState) (s : State) : (State.onCore f s).pending = s.pending := rfl
@[simp] theorem State.onCore_reply (f : CoreState → CoreState) (s : State) : (State.onCore f s).reply = s.reply := rfl
@[simp] theorem State.onCore_drawn (f : CoreState → CoreState) (s : State) : (State.onCore f s).drawn = s.drawn := rfl

@[simp] theorem State.takeAction_core (rest : List HostAction) (s : State) : (State.takeAction rest s).core = s.core := rfl
@[simp] theorem State.takeAction_pending (rest : List HostAction) (s : State) : (State.takeAction rest s).pending = rest := rfl
@[simp] theorem State.takeAction_reply (rest : List HostAction) (s : State) : (State.takeAction rest s).reply = none := rfl
@[simp] theorem State.takeAction_drawn (rest : List HostAction) (s : State) : (State.takeAction rest s).drawn = s.drawn := rfl

@[simp] theorem State.setReply_core (v : Word) (s : State) : (State.setReply v s).core = s.core := rfl
@[simp] theorem State.setReply_pending (v : Word) (s : State) : (State.setReply v s).pending = s.pending := rfl
@[simp] theorem State.setReply_reply (v : Word) (s : State) : (State.setReply v s).reply = some v := rfl
@[simp] theorem State.setReply_drawn (v : Word) (s : State) : (State.setReply v s).drawn = s.drawn := rfl

@[simp] theorem resetMachine_core (s : State) : (resetMachine s).core = CoreState.afterReset s.drawn := rfl
@[simp] theorem resetMachine_pending (s : State) : (resetMachine s).pending = s.pending := rfl
@[simp] theorem resetMachine_reply (s : State) : (resetMachine s).reply = s.reply := rfl
@[simp] theorem resetMachine_drawn (s : State) : (resetMachine s).drawn = s.drawn + resetDraws := rfl

@[simp] theorem CoreState.afterReset_tv (n : Nat) : (CoreState.afterReset n).tv = false := rfl
@[simp] theorem CoreState.afterReset_err (n : Nat) : (CoreState.afterReset n).err = 0 := rfl

/-- The order of two changes of the core. -/
@[simp] theorem State.onCore_onCore (f g : CoreState → CoreState) (s : State) :
    (s.onCore f).onCore g = s.onCore (fun c => g (f c)) := rfl

/-- ERR holds the last value written to it. -/
@[simp] theorem CoreState.setErr_setErr (e f : BitVec 4) (c : CoreState) :
    (c.setErr e).setErr f = c.setErr f := rfl

end Sys2Proof.Machine
end

