-- ==== Sys2Proof/Laws/Commands.lean ====
section
/-! SUPPORT. One lemma for each outcome of each command, so that no later proof unfolds one. -/

namespace Sys2Proof.Machine

/-- `raise Error(e)` writes ERR and nothing else (60 R203). -/
theorem raiseError_eq (e : CommandError) (c : CoreState) : raiseError e c = { c with err := e.code } := rfl

/-- A command that ends well writes OK (10 R27). -/
theorem succeed_eq (c : CoreState) : succeed c = { c with err := 0x0 } := rfl

/-- KEYGEN with the legal length. -/
theorem keygenCommand_legal (c : CoreState) :
    keygenCommand 4 c = { c with rk := keySchedule c.key, err := 0x0 } := rfl

/-- KEYGEN with any other length. -/
theorem keygenCommand_illegal {la : Nat} (h : la ≠ 4) (c : CoreState) :
    keygenCommand la c = { c with err := 0x1 } := by
  simp [keygenCommand, blockLengthLegal, h, raiseError_eq, CommandError.code]

/-- ENC or DEC with an illegal length. -/
theorem cryptCommand_illegal {la lb : Nat} (h : la ≠ 4 ∨ lb ≠ 32) (dir : Direction) (var : Variant) (c : CoreState) :
    cryptCommand dir var la lb c = { c with err := 0x1 } := by
  have : ¬ (la = 4 ∧ lb = 32) := by omega
  simp [cryptCommand, blockLengthLegal, scheduleLengthLegal, this, raiseError_eq, CommandError.code]

/-- ENC or DEC in the table variant before TINIT. -/
theorem cryptCommand_notInitialized (dir : Direction) (c : CoreState) (h : c.tv = false) :
    cryptCommand dir .table 4 32 c = { c with err := 0x2 } := by
  simp [cryptCommand, blockLengthLegal, scheduleLengthLegal, h, raiseError_eq, CommandError.code]

/-- ENC or DEC that runs. -/
theorem cryptCommand_runs (dir : Direction) (var : Variant) (c : CoreState) (h : var = .table → c.tv = true) :
    cryptCommand dir var 4 32 c = { c with blk := crypt c.tbl c.blk c.rk dir var, err := 0x0 } := by
  have : ¬ (var = .table ∧ c.tv = false) := by
    rintro ⟨hv, ht⟩
    simp [h hv] at ht
  simp [cryptCommand, blockLengthLegal, scheduleLengthLegal, this, succeed_eq, CoreState.setBlk]

/-- TINIT. -/
theorem tinitCommand_eq (c : CoreState) :
    tinitCommand c = { c with tbl := buildTables, tv := true, err := 0x0 } := rfl

/-- What each arm of `exec` calls. -/
theorem exec_keygen (la : Nat) (s : State) : exec (.keygen la) s = .next (s.onCore (keygenCommand la)) := rfl

theorem exec_encD (la lb : Nat) (s : State) :
    exec (.encD la lb) s = .next (s.onCore (cryptCommand .encrypt .direct la lb)) := rfl

theorem exec_encT (la lb : Nat) (s : State) :
    exec (.encT la lb) s = .next (s.onCore (cryptCommand .encrypt .table la lb)) := rfl

theorem exec_decD (la lb : Nat) (s : State) :
    exec (.decD la lb) s = .next (s.onCore (cryptCommand .decrypt .direct la lb)) := rfl

theorem exec_decT (la lb : Nat) (s : State) :
    exec (.decT la lb) s = .next (s.onCore (cryptCommand .decrypt .table la lb)) := rfl

theorem exec_tinit (s : State) : exec .tinit s = .next (s.onCore tinitCommand) := rfl

/-- What a command does to the core. -/
def commandOnCore : Instr → CoreState → CoreState
  | .keygen la => keygenCommand la
  | .encD la lb => cryptCommand .encrypt .direct la lb
  | .encT la lb => cryptCommand .encrypt .table la lb
  | .decD la lb => cryptCommand .decrypt .direct la lb
  | .decT la lb => cryptCommand .decrypt .table la lb
  | .tinit => tinitCommand

/-- Every command answers a next state and changes the core only. -/
theorem exec_eq (i : Instr) (s : State) : exec i s = .next (s.onCore (commandOnCore i)) := by
  cases i with
  | keygen la => exact exec_keygen la s
  | encD la lb => exact exec_encD la lb s
  | encT la lb => exact exec_encT la lb s
  | decD la lb => exact exec_decD la lb s
  | decT la lb => exact exec_decT la lb s
  | tinit => exact exec_tinit s

/-- The output block, word by word (42 R154). -/
@[simp] theorem outputBlock_get0 (w : Window) : (outputBlock w)[0] = w.x3 := rfl
@[simp] theorem outputBlock_get1 (w : Window) : (outputBlock w)[1] = w.x2 := rfl
@[simp] theorem outputBlock_get2 (w : Window) : (outputBlock w)[2] = w.x1 := rfl
@[simp] theorem outputBlock_get3 (w : Window) : (outputBlock w)[3] = w.x0 := rfl

/-- The seed from an output block: the same four words, reversed. -/
@[simp] theorem blockSeed_outputBlock (w : Window) : blockSeed (outputBlock w) = ⟨w.x3, w.x2, w.x1, w.x0⟩ := rfl

/-- A block is its four words. -/
theorem outputBlock_of_blockSeed (b : Vector Word 4) :
    outputBlock ⟨(blockSeed b).x3, (blockSeed b).x2, (blockSeed b).x1, (blockSeed b).x0⟩ = b := by
  apply Vector.ext
  intro i hi
  match i, hi with
  | 0, _ => rfl
  | 1, _ => rfl
  | 2, _ => rfl
  | 3, _ => rfl

/-- RK[i] of the schedule: the word that round i adds. -/
theorem keySchedule_get (key : Vector Word 4) (i : Nat) (h : i < 32) :
    (keySchedule key)[i] = (windowAfter transformTPrime (wordAt Config.ck) (keySeed key) (i + 1)).x3 := by
  simp [keySchedule]

/-- An entry of the tables TINIT builds. -/
@[simp] theorem tableRead_buildTables (k : Fin 4) (b : Byte) : tableRead buildTables k b = tableEntry k b := by
  simp [tableRead, buildTables]

end Sys2Proof.Machine
end

