-- ==== Sys2Proof/Laws/Decode.lean ====
section
/-! SUPPORT. The fields of a command word, of a masked word and of a packed word, and what the decoder accepts. -/

namespace Sys2Proof

/-- A word is the seven fields of 30 R80, joined. -/
theorem fields_join (w : Word) :
    rsv2Field w ++ lbField w ++ rsv1Field w ++ laField w ++ rsv0Field w ++ vField w ++ opField w = w := by
  apply BitVec.eq_of_getLsbD_eq
  intro i hi
  have : i < 32 := hi
  simp only [rsv2Field, lbField, rsv1Field, laField, rsv0Field, vField, opField, BitVec.getLsbD_append,
    BitVec.getLsbD_extractLsb']
  interval_cases i <;> simp

/-- Two words with the same fields are the same word. -/
theorem word_ext_fields {x y : Word} (h2 : rsv2Field x = rsv2Field y) (hb : lbField x = lbField y)
    (h1 : rsv1Field x = rsv1Field y) (ha : laField x = laField y) (h0 : rsv0Field x = rsv0Field y)
    (hv : vField x = vField y) (ho : opField x = opField y) : x = y := by
  rw [← fields_join x, ← fields_join y, h2, hb, h1, ha, h0, hv, ho]

/-- A field of a masked word is the field, masked. -/
theorem extract_and (w m : Word) (s l : Nat) :
    (w &&& m).extractLsb' s l = w.extractLsb' s l &&& m.extractLsb' s l := by
  apply BitVec.eq_of_getLsbD_eq
  intro i hi
  simp [hi]

/-- No reserved bit is set: the three reserved fields are 0. -/
theorem reservedBitSet_eq_false (w : Word) :
    reservedBitSet w = false ↔ rsv0Field w = 0 ∧ rsv1Field w = 0 ∧ rsv2Field w = 0 := by
  simp [reservedBitSet, and_assoc]

@[simp] theorem opField_pack (lb la : BitVec 6) (v : BitVec 1) (op : BitVec 4) :
    opField (packCommand lb la v op) = op := by
  apply BitVec.eq_of_getLsbD_eq
  intro i hi
  simp only [opField, packCommand, BitVec.getLsbD_append, BitVec.getLsbD_extractLsb']
  interval_cases i <;> simp

@[simp] theorem vField_pack (lb la : BitVec 6) (v : BitVec 1) (op : BitVec 4) :
    vField (packCommand lb la v op) = v := by
  apply BitVec.eq_of_getLsbD_eq
  intro i hi
  simp only [vField, packCommand, BitVec.getLsbD_append, BitVec.getLsbD_extractLsb']
  obtain rfl : i = 0 := by omega
  simp

@[simp] theorem laField_pack (lb la : BitVec 6) (v : BitVec 1) (op : BitVec 4) :
    laField (packCommand lb la v op) = la := by
  apply BitVec.eq_of_getLsbD_eq
  intro i hi
  simp only [laField, packCommand, BitVec.getLsbD_append, BitVec.getLsbD_extractLsb']
  interval_cases i <;> simp

@[simp] theorem lbField_pack (lb la : BitVec 6) (v : BitVec 1) (op : BitVec 4) :
    lbField (packCommand lb la v op) = lb := by
  apply BitVec.eq_of_getLsbD_eq
  intro i hi
  simp only [lbField, packCommand, BitVec.getLsbD_append, BitVec.getLsbD_extractLsb']
  interval_cases i <;> simp

@[simp] theorem rsv0Field_pack (lb la : BitVec 6) (v : BitVec 1) (op : BitVec 4) :
    rsv0Field (packCommand lb la v op) = 0 := by
  apply BitVec.eq_of_getLsbD_eq
  intro i hi
  simp only [rsv0Field, packCommand, BitVec.getLsbD_append, BitVec.getLsbD_extractLsb']
  interval_cases i <;> simp

@[simp] theorem rsv1Field_pack (lb la : BitVec 6) (v : BitVec 1) (op : BitVec 4) :
    rsv1Field (packCommand lb la v op) = 0 := by
  apply BitVec.eq_of_getLsbD_eq
  intro i hi
  simp only [rsv1Field, packCommand, BitVec.getLsbD_append, BitVec.getLsbD_extractLsb']
  interval_cases i <;> simp

@[simp] theorem rsv2Field_pack (lb la : BitVec 6) (v : BitVec 1) (op : BitVec 4) :
    rsv2Field (packCommand lb la v op) = 0 := by
  apply BitVec.eq_of_getLsbD_eq
  intro i hi
  simp only [rsv2Field, packCommand, BitVec.getLsbD_append, BitVec.getLsbD_extractLsb']
  interval_cases i <;> simp

/-- A packed word has no reserved bit set. -/
@[simp] theorem reservedBitSet_pack (lb la : BitVec 6) (v : BitVec 1) (op : BitVec 4) :
    reservedBitSet (packCommand lb la v op) = false := by
  simp [reservedBitSet]

/-- V is 0 or 1. -/
theorem vField_cases (w : Word) : vField w = 0 ∨ vField w = 1 := by
  have : ∀ v : BitVec 1, v = 0 ∨ v = 1 := by decide
  exact this _

/-- All the decoder accepts: the six rows of 30 R87, each with the command it gives. -/
theorem decode_ok_iff (w : Word) (i : Instr) :
    decode w = .ok i ↔ reservedBitSet w = false ∧
      ((opField w = 1 ∧ vField w = 0 ∧ lbField w = 0 ∧ i = .keygen (laField w).toNat) ∨
       (opField w = 2 ∧ vField w = 0 ∧ i = .encD (laField w).toNat (lbField w).toNat) ∨
       (opField w = 2 ∧ vField w = 1 ∧ i = .encT (laField w).toNat (lbField w).toNat) ∨
       (opField w = 3 ∧ vField w = 0 ∧ i = .decD (laField w).toNat (lbField w).toNat) ∨
       (opField w = 3 ∧ vField w = 1 ∧ i = .decT (laField w).toNat (lbField w).toNat) ∨
       (opField w = 4 ∧ vField w = 0 ∧ laField w = 0 ∧ lbField w = 0 ∧ i = .tinit)) := by
  have hv := vField_cases w
  unfold decode
  generalize reservedBitSet w = r
  generalize opField w = op
  generalize laField w = la
  generalize lbField w = lb
  generalize vField w = v at hv ⊢
  constructor
  · intro h
    rcases hv with rfl | rfl <;> cases r <;> simp at h ⊢ <;> split_ifs at h <;> cases h <;> simp_all
  · rintro ⟨rfl, ⟨rfl, rfl, rfl, rfl⟩ | ⟨rfl, rfl, rfl⟩ | ⟨rfl, rfl, rfl⟩ | ⟨rfl, rfl, rfl⟩ | ⟨rfl, rfl, rfl⟩ |
      ⟨rfl, rfl, rfl, rfl, rfl⟩⟩ <;> simp

end Sys2Proof
end

