-- ==== Sys2Proof/Laws/Expansion.lean ====
section
/-! SUPPORT. The sliding window as an array: the words of the expansion buffer and their recurrence. -/

namespace Sys2Proof.Machine

/-- No round has been done. -/
@[simp] theorem windowAfter_zero (F : Word → Word) (k : Nat → Word) (seed : Window) :
    windowAfter F k seed 0 = seed := rfl

/-- One more round. -/
theorem windowAfter_succ (F : Word → Word) (k : Nat → Word) (seed : Window) (n : Nat) :
    windowAfter F k seed (n + 1) = roundStep F (k n) (windowAfter F k seed n) := rfl

/-- The window after n rounds holds X[n], X[n+1], X[n+2], X[n+3] of every buffer X that starts with the seed and meets the
recurrence in the first n rounds. -/
theorem windowAfter_eq (F : Word → Word) (k : Nat → Word) (X : Nat → Word) (m : Nat)
    (h : ∀ i < m, X (i + 4) = X i ^^^ F (X (i + 1) ^^^ X (i + 2) ^^^ X (i + 3) ^^^ k i)) :
    ∀ n ≤ m, windowAfter F k ⟨X 0, X 1, X 2, X 3⟩ n = ⟨X n, X (n + 1), X (n + 2), X (n + 3)⟩ := by
  intro n
  induction n with
  | zero => intro _; rfl
  | succ n ih =>
    intro hn
    rw [windowAfter_succ, ih (by omega)]
    simp only [roundStep, ← h n (by omega)]

/-- The oldest word of the window after n rounds is X[n], so the window holds four consecutive such words. -/
theorem windowAfter_x0 (F : Word → Word) (k : Nat → Word) (seed : Window) (n : Nat) :
    windowAfter F k seed n = ⟨(windowAfter F k seed n).x0, (windowAfter F k seed (n + 1)).x0,
      (windowAfter F k seed (n + 2)).x0, (windowAfter F k seed (n + 3)).x0⟩ := by
  simp [windowAfter_succ, roundStep]

/-- The words X[n] = (window n).x0 meet the recurrence in every round, so every seed has an expansion. -/
theorem windowAfter_recurrence (F : Word → Word) (k : Nat → Word) (seed : Window) (i : Nat) :
    (windowAfter F k seed (i + 4)).x0 = (windowAfter F k seed i).x0 ^^^
      F ((windowAfter F k seed (i + 1)).x0 ^^^ (windowAfter F k seed (i + 2)).x0 ^^^
        (windowAfter F k seed (i + 3)).x0 ^^^ k i) := by
  simp [windowAfter_succ, roundStep]

/-- Runs that use the same transform, and the same subkeys in the first n rounds, agree. -/
theorem windowAfter_congr {F G : Word → Word} {k l : Nat → Word} (seed : Window) (n : Nat)
    (hF : ∀ x, F x = G x) (hk : ∀ i < n, k i = l i) : windowAfter F k seed n = windowAfter G l seed n := by
  induction n with
  | zero => rfl
  | succ n ih => rw [windowAfter_succ, windowAfter_succ, ih fun i hi => hk i (by omega), hk n (by omega), roundStep,
      roundStep, hF]

end Sys2Proof.Machine
end

