-- ==== Sys2Proof/Laws/Operands.lean ====
section
/-! SUPPORT. The window map: what an access reaches, both ways. -/

namespace Sys2Proof.Machine

/-- The register at the offset of a register is that register. -/
@[simp] theorem regAt_offset (r : Reg) : regAt r.offset = some r := by
  cases r with
  | key i => simp [regAt, Reg.offset, show 4 * i.val < 0x010 by omega]
  | blk i =>
    simp [regAt, Reg.offset, show ¬ 0x010 + 4 * i.val < 0x010 by omega, show 0x010 + 4 * i.val < 0x020 by omega]
  | cmd => rfl
  | status => rfl
  | rk i =>
    simp [regAt, Reg.offset, show ¬ 0x080 + 4 * i.val < 0x010 by omega, show ¬ 0x080 + 4 * i.val < 0x020 by omega,
      show ¬ 0x080 + 4 * i.val = 0x020 by omega, show ¬ 0x080 + 4 * i.val = 0x024 by omega,
      show 0x080 + 4 * i.val < 0x100 by omega]

/-- Register offsets are word-aligned and inside the window. -/
theorem Reg.offset_bounds (r : Reg) : r.offset % 4 = 0 ∧ r.offset < 0x100 := by
  cases r with
  | key i => simp only [Reg.offset]; omega
  | blk i => simp only [Reg.offset]; omega
  | cmd => decide
  | status => decide
  | rk i => simp only [Reg.offset]; omega

/-- Two registers with one offset are one register. -/
theorem Reg.offset_injective {r q : Reg} (h : r.offset = q.offset) : r = q := by
  have := regAt_offset r
  rw [h, regAt_offset] at this
  exact (Option.some.inj this).symm

/-- The aligned offsets with no register are 0x028 to 0x07F, inside the window. -/
theorem regAt_eq_none (off : Nat) (h4 : off % 4 = 0) (hw : off < 0x100) :
    regAt off = none ↔ 0x028 ≤ off ∧ off ≤ 0x07F := by
  unfold regAt
  split_ifs <;> simp <;> omega

/-- A register's own offset reaches it. -/
@[simp] theorem access_offset (r : Reg) : access 4 r.offset = .reg r := by
  obtain ⟨h4, hw⟩ := r.offset_bounds
  simp [access, h4, Nat.not_le.mpr hw]

/-- An access that reaches a register is a word access at that register's offset. -/
theorem access_reg {n off : Nat} {r : Reg} (h : access n off = .reg r) : n = 4 ∧ off = r.offset := by
  unfold access at h
  split_ifs at h with h1 h2
  cases hr : regAt off with
  | none => simp [hr] at h
  | some q =>
    simp only [hr, Access.reg.injEq] at h
    subst h
    refine ⟨h2.1, ?_⟩
    unfold regAt at hr
    split_ifs at hr <;> cases hr <;> simp only [Reg.offset] <;> omega

/-- Inside the window, the accesses that reach no register. -/
theorem access_busError {n off : Nat} (hw : off < 0x100) :
    access n off = .busError ↔ n ≠ 4 ∨ off % 4 ≠ 0 ∨ (0x028 ≤ off ∧ off ≤ 0x07F) := by
  unfold access
  rw [if_neg (by omega)]
  by_cases h : n = 4 ∧ off % 4 = 0
  · rw [if_pos h]
    have := regAt_eq_none off h.2 hw
    cases hr : regAt off <;> simp_all
  · rw [if_neg h]
    simp only [true_iff]
    omega

/-- The accesses outside the window. -/
theorem access_outside {n off : Nat} : access n off = .outside ↔ 0x100 ≤ off := by
  unfold access
  split_ifs with h1 h2
  · simp [h1]
  · cases hr : regAt off <;> simp <;> omega
  · simp; omega

end Sys2Proof.Machine
end

