-- ==== Sys2Proof/Laws/HostPort.lean ====
section
/-! SUPPORT. What a host action can do: the inversion lemmas of `issue`, `perform` and `step`. -/

namespace Sys2Proof.Machine

/-- A legal word issues its command. -/
theorem issue_ok {w : Word} {i : Instr} (h : decode w = .ok i) (s : State) : issue w s = exec i s := by
  simp [issue, h]

/-- An illegal word reports ILLEGAL_COMMAND. -/
theorem issue_error {w : Word} {e : DecodeError} (h : decode w = .error e) (s : State) :
    issue w s = .next (s.onCore (raiseError .illegalCommand)) := by
  simp [issue, h]

/-- What a command word does to the core. -/
def wordOnCore (w : Word) : CoreState → CoreState :=
  match decode w with
  | .ok i => commandOnCore i
  | .error _ => raiseError .illegalCommand

/-- Issuing any word answers a next state and changes the core only. -/
theorem issue_eq (w : Word) (s : State) : issue w s = .next (s.onCore (wordOnCore w)) := by
  unfold issue wordOnCore
  cases decode w with
  | ok i => exact exec_eq i s
  | error e => rfl

/-- The word of a command that succeeds, and what it does to the core (30 R87, canonical words). -/
inductive Succeeds : Word → CoreState → CoreState → Prop where
  | keygen (c : CoreState) : Succeeds 0x00000401 c { c with rk := keySchedule c.key, err := 0x0 }
  | encD (c : CoreState) : Succeeds 0x00200402 c { c with blk := crypt c.tbl c.blk c.rk .encrypt .direct, err := 0x0 }
  | encT (c : CoreState) (h : c.tv = true) :
      Succeeds 0x00200412 c { c with blk := crypt c.tbl c.blk c.rk .encrypt .table, err := 0x0 }
  | decD (c : CoreState) : Succeeds 0x00200403 c { c with blk := crypt c.tbl c.blk c.rk .decrypt .direct, err := 0x0 }
  | decT (c : CoreState) (h : c.tv = true) :
      Succeeds 0x00200413 c { c with blk := crypt c.tbl c.blk c.rk .decrypt .table, err := 0x0 }
  | tinit (c : CoreState) : Succeeds 0x00000004 c { c with tbl := buildTables, tv := true, err := 0x0 }

/-- A command that succeeds writes OK. -/
theorem Succeeds.err {w : Word} {c d : CoreState} (h : Succeeds w c d) : d.err = 0x0 := by
  cases h <;> rfl

/-- A field that decodes to a number is that number. -/
theorem field_eq {n : Nat} {x : BitVec n} {k : Nat} (h : x.toNat = k) : x = BitVec.ofNat n k := by
  subst h; simp

/-- All that issuing a word can do: one of the six commands succeeds, on its canonical word, or ERR gets the code of an
error and nothing else changes. -/
theorem issue_cases (w : Word) (s : State) : ∃ c : CoreState, issue w s = .next { s with core := c } ∧
    (Succeeds w s.core c ∨ ∃ e : CommandError, c = { s.core with err := e.code }) := by
  cases hd : decode w with
  | error e => exact ⟨_, issue_error hd s, .inr ⟨.illegalCommand, rfl⟩⟩
  | ok i =>
    rw [issue_ok hd]
    obtain ⟨hr, h⟩ := (decode_ok_iff w i).mp hd
    obtain ⟨h0, h1, h2⟩ := (reservedBitSet_eq_false w).mp hr
    have word : ∀ (lb la : Nat) (v : BitVec 1) (op : BitVec 4), (laField w).toNat = la → (lbField w).toNat = lb →
        vField w = v → opField w = op → w = packCommand (BitVec.ofNat 6 lb) (BitVec.ofNat 6 la) v op := by
      intro lb la v op ha hb hv ho
      apply word_ext_fields <;> simp [h0, h1, h2, hv, ho, field_eq ha, field_eq hb]
    have bad : ∀ (la lb : Nat) (dir : Direction) (var : Variant), ¬ (la = 4 ∧ lb = 32) →
        s.onCore (cryptCommand dir var la lb) = { s with core := { s.core with err := CommandError.invalidLength.code } } := by
      intro la lb dir var hl
      simp only [State.onCore, cryptCommand_illegal (show la ≠ 4 ∨ lb ≠ 32 by omega)]
      rfl
    rcases h with ⟨ho, hv, hb, rfl⟩ | ⟨ho, hv, rfl⟩ | ⟨ho, hv, rfl⟩ | ⟨ho, hv, rfl⟩ | ⟨ho, hv, rfl⟩ |
      ⟨ho, hv, ha, hb, rfl⟩
    · by_cases hl : (laField w).toNat = 4
      · have hw := word 0 4 0 1 hl (by simp [hb]) hv ho
        rw [show packCommand (BitVec.ofNat 6 0) (BitVec.ofNat 6 4) 0 1 = 0x00000401#32 by decide] at hw
        subst hw
        exact ⟨_, rfl, .inl (.keygen s.core)⟩
      · refine ⟨_, ?_, .inr ⟨.invalidLength, rfl⟩⟩
        simp only [exec_keygen, State.onCore, keygenCommand_illegal hl]
        rfl
    · by_cases hl : (laField w).toNat = 4 ∧ (lbField w).toNat = 32
      · have hw := word 32 4 0 2 hl.1 hl.2 hv ho
        rw [show packCommand (BitVec.ofNat 6 32) (BitVec.ofNat 6 4) 0 2 = 0x00200402#32 by decide] at hw
        subst hw
        exact ⟨_, rfl, .inl (.encD s.core)⟩
      · exact ⟨_, by rw [exec_encD, bad _ _ _ _ hl], .inr ⟨.invalidLength, rfl⟩⟩
    · by_cases hl : (laField w).toNat = 4 ∧ (lbField w).toNat = 32
      · have hw := word 32 4 1 2 hl.1 hl.2 hv ho
        rw [show packCommand (BitVec.ofNat 6 32) (BitVec.ofNat 6 4) 1 2 = 0x00200412#32 by decide] at hw
        cases ht : s.core.tv with
        | false =>
          refine ⟨_, ?_, .inr ⟨.notInitialized, rfl⟩⟩
          rw [exec_encT, hl.1, hl.2, State.onCore, cryptCommand_notInitialized _ _ ht]
          rfl
        | true =>
          refine ⟨{ s.core with blk := crypt s.core.tbl s.core.blk s.core.rk .encrypt .table, err := 0x0 }, ?_,
            .inl (hw ▸ Succeeds.encT s.core ht)⟩
          rw [exec_encT, hl.1, hl.2, State.onCore, cryptCommand_runs _ _ _ fun _ => ht]
      · exact ⟨_, by rw [exec_encT, bad _ _ _ _ hl], .inr ⟨.invalidLength, rfl⟩⟩
    · by_cases hl : (laField w).toNat = 4 ∧ (lbField w).toNat = 32
      · have hw := word 32 4 0 3 hl.1 hl.2 hv ho
        rw [show packCommand (BitVec.ofNat 6 32) (BitVec.ofNat 6 4) 0 3 = 0x00200403#32 by decide] at hw
        subst hw
        exact ⟨_, rfl, .inl (.decD s.core)⟩
      · exact ⟨_, by rw [exec_decD, bad _ _ _ _ hl], .inr ⟨.invalidLength, rfl⟩⟩
    · by_cases hl : (laField w).toNat = 4 ∧ (lbField w).toNat = 32
      · have hw := word 32 4 1 3 hl.1 hl.2 hv ho
        rw [show packCommand (BitVec.ofNat 6 32) (BitVec.ofNat 6 4) 1 3 = 0x00200413#32 by decide] at hw
        cases ht : s.core.tv with
        | false =>
          refine ⟨_, ?_, .inr ⟨.notInitialized, rfl⟩⟩
          rw [exec_decT, hl.1, hl.2, State.onCore, cryptCommand_notInitialized _ _ ht]
          rfl
        | true =>
          refine ⟨{ s.core with blk := crypt s.core.tbl s.core.blk s.core.rk .decrypt .table, err := 0x0 }, ?_,
            .inl (hw ▸ Succeeds.decT s.core ht)⟩
          rw [exec_decT, hl.1, hl.2, State.onCore, cryptCommand_runs _ _ _ fun _ => ht]
      · exact ⟨_, by rw [exec_decT, bad _ _ _ _ hl], .inr ⟨.invalidLength, rfl⟩⟩
    · have hw := word 0 0 0 4 (by simp [ha]) (by simp [hb]) hv ho
      rw [show packCommand (BitVec.ofNat 6 0) (BitVec.ofNat 6 0) 0 4 = 0x00000004#32 by decide] at hw
      subst hw
      exact ⟨_, rfl, .inl (.tinit s.core)⟩

/-- A step with nothing pending. -/
theorem step_idle {s : State} (h : s.pending = []) : step s = .next s := by
  simp [step, hostStep, h]

/-- A step with a host action pending. -/
theorem step_perform {s : State} {a : HostAction} {rest : List HostAction} (h : s.pending = a :: rest) :
    step s = perform a (s.takeAction rest) := by
  simp [step, hostStep, h]

/-- A read of a register. -/
theorem perform_read (r : Reg) (s : State) : perform (.read 4 r.offset) s = .next (s.setReply (readReg r s.core)) := by
  simp [perform, memRead]

/-- A write of a register. -/
theorem perform_write (r : Reg) (v : Word) (s : State) : perform (.write 4 r.offset v) s = writeReg r v s := by
  simp [perform, memWrite]

/-- A step whose next host action is a word write to CMD. -/
theorem step_command {s : State} {w : Word} {rest : List HostAction} (h : s.pending = .write 4 0x020 w :: rest) :
    step s = .next ((s.takeAction rest).onCore (wordOnCore w)) := by
  rw [step_perform h]
  exact (perform_write .cmd w _).trans (issue_eq w _)

/-- All that a host action that answers a next state can be: a read of a register, a write of one, or a reset. -/
theorem perform_next {a : HostAction} {s t : State} (h : perform a s = .next t) :
    (∃ r, a = .read 4 r.offset ∧ t = s.setReply (readReg r s.core)) ∨
    (∃ r v, a = .write 4 r.offset v ∧ writeReg r v s = .next t) ∨ (a = .reset ∧ t = resetMachine s) := by
  cases a with
  | read n off =>
    simp only [perform, memRead] at h
    split at h
    · rename_i r hr
      obtain ⟨rfl, rfl⟩ := access_reg hr
      exact .inl ⟨r, rfl, by cases h; rfl⟩
    · cases h
    · cases h
  | write n off v =>
    simp only [perform, memWrite] at h
    split at h
    · rename_i r hr
      obtain ⟨rfl, rfl⟩ := access_reg hr
      exact .inr (.inl ⟨r, v, rfl, h⟩)
    · cases h
    · cases h
  | reset => exact .inr (.inr ⟨rfl, by cases h; rfl⟩)

/-- All that a step which answers a next state can do: nothing (no action pending), or one host action: a read, a write to
KEY, to BLK, to CMD, to a read-only register, or a reset. -/
inductive Steps : State → State → Prop where
  | idle (s : State) (h : s.pending = []) : Steps s s
  | read (s : State) (r : Reg) (rest : List HostAction) (h : s.pending = .read 4 r.offset :: rest) :
      Steps s { s with pending := rest, reply := some (readReg r s.core) }
  | writeKey (s : State) (i : Fin 4) (v : Word) (rest : List HostAction)
      (h : s.pending = .write 4 (Reg.key i).offset v :: rest) :
      Steps s { s with pending := rest, reply := none, core := { s.core with key := s.core.key.set i v } }
  | writeBlk (s : State) (i : Fin 4) (v : Word) (rest : List HostAction)
      (h : s.pending = .write 4 (Reg.blk i).offset v :: rest) :
      Steps s { s with pending := rest, reply := none, core := { s.core with blk := s.core.blk.set i v } }
  | ignored (s : State) (r : Reg) (v : Word) (rest : List HostAction) (hr : r = .status ∨ ∃ i, r = .rk i)
      (h : s.pending = .write 4 r.offset v :: rest) : Steps s { s with pending := rest, reply := none }
  | succeeds (s : State) (w : Word) (c : CoreState) (rest : List HostAction)
      (h : s.pending = .write 4 0x020 w :: rest) (hc : Succeeds w s.core c) :
      Steps s { s with pending := rest, reply := none, core := c }
  | fails (s : State) (w : Word) (e : CommandError) (rest : List HostAction) (h : s.pending = .write 4 0x020 w :: rest) :
      Steps s { s with pending := rest, reply := none, core := { s.core with err := e.code } }
  | reset (s : State) (rest : List HostAction) (h : s.pending = .reset :: rest) :
      Steps s { core := CoreState.afterReset s.drawn, pending := rest, reply := none, drawn := s.drawn + resetDraws }

/-- The inversion lemma of `step`. -/
theorem step_cases {s t : State} (h : step s = .next t) : Steps s t := by
  cases hp : s.pending with
  | nil =>
    rw [step_idle hp] at h
    cases h
    exact .idle s hp
  | cons a rest =>
    rw [step_perform hp] at h
    rcases perform_next h with ⟨r, rfl, rfl⟩ | ⟨r, v, rfl, hw⟩ | ⟨rfl, rfl⟩
    · exact .read s r rest hp
    · cases r with
      | key i => cases hw; exact .writeKey s i v rest hp
      | blk i => cases hw; exact .writeBlk s i v rest hp
      | cmd =>
        obtain ⟨c, hc, hs | ⟨e, rfl⟩⟩ := issue_cases v (s.takeAction rest)
        · have : t = { s.takeAction rest with core := c } := by
            simp only [writeReg, hc] at hw
            cases hw; rfl
          subst this
          exact .succeeds s v c rest hp hs
        · have : t = { s.takeAction rest with core := { s.core with err := e.code } } := by
            simp only [writeReg, hc] at hw
            cases hw; rfl
          subst this
          exact .fails s v e rest hp
      | status => cases hw; exact .ignored s _ v rest (.inl rfl) hp
      | rk i => cases hw; exact .ignored s _ v rest (.inr ⟨i, rfl⟩) hp
    · exact .reset s rest hp

end Sys2Proof.Machine
end

