-- ==== Sys2Proof/Laws/PerInstr.lean ====
section
/-! SUPPORT. Statements about every command as syntax, one lemma per constructor. The family MatchBits: the word of a
well-formed command has OP and V of its row of 30_encoding R87 and 0 in every reserved bit and every field its row does not
use. -/

namespace Sys2Proof.Laws.MatchBits

/-- OP of the row of R87. -/
def op : Instr → BitVec 4
  | .keygen _ => 0x1
  | .encD _ _ => 0x2
  | .encT _ _ => 0x2
  | .decD _ _ => 0x3
  | .decT _ _ => 0x3
  | .tinit => 0x4

/-- V of the row of R87. -/
def v : Instr → BitVec 1
  | .keygen _ => 0
  | .encD _ _ => 0
  | .encT _ _ => 1
  | .decD _ _ => 0
  | .decT _ _ => 1
  | .tinit => 0

/-- LA of the row of R87: the declared length, 0 for TINIT. -/
def la : Instr → Nat
  | .keygen la => la
  | .encD la _ => la
  | .encT la _ => la
  | .decD la _ => la
  | .decT la _ => la
  | .tinit => 0

/-- LB of the row of R87: the declared length, 0 for KEYGEN and TINIT. -/
def lb : Instr → Nat
  | .keygen _ => 0
  | .encD _ lb => lb
  | .encT _ lb => lb
  | .decD _ lb => lb
  | .decT _ lb => lb
  | .tinit => 0

/-- The fields of the command's word are those of its row. -/
def Statement (i : Instr) : Prop :=
  i.wellFormed = true → opField (encode i) = op i ∧ vField (encode i) = v i ∧ (laField (encode i)).toNat = la i ∧
    (lbField (encode i)).toNat = lb i ∧ reservedBitSet (encode i) = false

theorem keygen (la : Nat) : Statement (.keygen la) := by
  intro h
  simp only [Instr.wellFormed, lengthFits, decide_eq_true_eq] at h
  exact ⟨by simp [encode, op], by simp [encode, v], by simp [encode, MatchBits.la, h], by simp [encode, lb],
    by simp [encode]⟩

theorem encD (la lb : Nat) : Statement (.encD la lb) := by
  intro h
  simp only [Instr.wellFormed, lengthFits, Bool.and_eq_true, decide_eq_true_eq] at h
  exact ⟨by simp [encode, op], by simp [encode, v], by simp [encode, MatchBits.la, h.1],
    by simp [encode, MatchBits.lb, h.2], by simp [encode]⟩

theorem encT (la lb : Nat) : Statement (.encT la lb) := by
  intro h
  simp only [Instr.wellFormed, lengthFits, Bool.and_eq_true, decide_eq_true_eq] at h
  exact ⟨by simp [encode, op], by simp [encode, v], by simp [encode, MatchBits.la, h.1],
    by simp [encode, MatchBits.lb, h.2], by simp [encode]⟩

theorem decD (la lb : Nat) : Statement (.decD la lb) := by
  intro h
  simp only [Instr.wellFormed, lengthFits, Bool.and_eq_true, decide_eq_true_eq] at h
  exact ⟨by simp [encode, op], by simp [encode, v], by simp [encode, MatchBits.la, h.1],
    by simp [encode, MatchBits.lb, h.2], by simp [encode]⟩

theorem decT (la lb : Nat) : Statement (.decT la lb) := by
  intro h
  simp only [Instr.wellFormed, lengthFits, Bool.and_eq_true, decide_eq_true_eq] at h
  exact ⟨by simp [encode, op], by simp [encode, v], by simp [encode, MatchBits.la, h.1],
    by simp [encode, MatchBits.lb, h.2], by simp [encode]⟩

theorem tinit : Statement .tinit := by
  intro _
  exact ⟨by simp [encode, op], by simp [encode, v], by simp [encode, la], by simp [encode, lb], by simp [encode]⟩

end Sys2Proof.Laws.MatchBits
end

