-- ==== Sys2Proof/Laws/Run.lean ====
section
/-! SUPPORT. Several steps, one at a time. -/

namespace Sys2Proof.Machine

/-- No step. -/
theorem run_zero (s : State) : Host.Core.run Sys2Proof.core 0 s = .next s := rfl

/-- A first step that answers a next state, then the others. -/
theorem run_succ {s t : State} (k : Nat) (h : step s = .next t) :
    Host.Core.run Sys2Proof.core (k + 1) s = Host.Core.run Sys2Proof.core k t := by
  have h' : Sys2Proof.core.step s = .next t := h
  simp only [Host.Core.run, h']

end Sys2Proof.Machine
end

