-- ==== Sys2Proof/Tests/Slice0.lean ====
section
/-! SUPPORT. The model's own tests, each with its expected result from the spec (95_test_vectors unless a rule is named), and
a witness for every statement that has hypotheses. -/

namespace Sys2Proof.Tests

open Sys2Proof Sys2Proof.Machine

/-! ### A small state, and what a step left -/

/-- Four equal words. -/
def same4 (w : Word) : Vector Word 4 := tabulate 4 fun _ => w

/-- The key and plaintext of 95 V-KAT1, and the ciphertext. -/
def katText : Vector Word 4 := ⟨#[0x01234567, 0x89abcdef, 0xfedcba98, 0x76543210], rfl⟩
def katCipher : Vector Word 4 := ⟨#[0x681edf34, 0xd206965e, 0x86b3e94f, 0x536e4246], rfl⟩

/-- The round keys of 95 V-KS1. -/
def katKeys : Vector Word 32 :=
  ⟨([0xf12186f9, 0x41662b61, 0x5a6ab19a, 0x7ba92077, 0x367360f4, 0x776a0c61, 0xb6bb89b3, 0x24763151] ++
    [0xa520307c, 0xb7584dbd, 0xc30753ed, 0x7ee55b57, 0x6988608c, 0x30d895b7, 0x44ba14af, 0x104495a1] ++
    [0xd120b428, 0x73b55fa3, 0xcc874966, 0x92244439, 0xe89e641f, 0x98ca015a, 0xc7159060, 0x99e1fd2e] ++
    [0xb79bd80c, 0x1d2115b0, 0x0e228aeb, 0xf1780c81, 0x428d3654, 0x62293496, 0x01cf72e5, 0x9124a012] :
      List Word).toArray, by simp⟩

/-- The start state of 95 section 2.9, with a given TV: KEY = BLK = 0, RK = 7 everywhere. -/
def start (tv : Bool) (p : List HostAction) : State where
  core := { key := same4 0, blk := same4 0, rk := tabulate 32 fun _ => 7, tbl := buildTables, tv := tv, err := 0 }
  pending := p
  reply := none
  drawn := 0

/-- The machine with the text, key and round keys of 95 V-KAT1. -/
def kat (blk : Vector Word 4) (tv : Bool) (p : List HostAction) : State where
  core := { key := katText, blk := blk, rk := katKeys, tbl := buildTables, tv := tv, err := 0 }
  pending := p
  reply := none
  drawn := 0

/-- Issue a command word. -/
def cmd (w : Word) : HostAction := .write 4 0x020 w

/-- A field of the state a step leaves, if it leaves one. -/
def after {α : Type} (f : State → α) (o : Host.Outcome State Fault Refusal) : Option α :=
  match o with
  | .next t => some (f t)
  | .fault _ => none
  | .refused _ => none

/-- The STATUS word a step leaves. -/
def status (o : Host.Outcome State Fault Refusal) : Option Word := after (fun t => statusWord t.core) o

/-- The fault a step ends in. -/
def faultOf (o : Host.Outcome State Fault Refusal) : Option Fault :=
  match o with
  | .fault e => some e
  | .next _ => none
  | .refused _ => none

/-! ### Well-formedness: an ill-formed term for each check -/

theorem test_keygen_la_refused : (Instr.keygen 64).wellFormed = false := by decide
theorem test_encD_la_refused : (Instr.encD 64 32).wellFormed = false := by decide
theorem test_encD_lb_refused : (Instr.encD 4 64).wellFormed = false := by decide
theorem test_encT_la_refused : (Instr.encT 64 32).wellFormed = false := by decide
theorem test_encT_lb_refused : (Instr.encT 4 64).wellFormed = false := by decide
theorem test_decD_la_refused : (Instr.decD 64 32).wellFormed = false := by decide
theorem test_decD_lb_refused : (Instr.decD 4 64).wellFormed = false := by decide
theorem test_decT_la_refused : (Instr.decT 64 32).wellFormed = false := by decide
theorem test_decT_lb_refused : (Instr.decT 4 64).wellFormed = false := by decide

/-! ### Decoding: words written out from the patterns of 30_encoding R87 (RSV2 LB RSV1 LA RSV0 V OP) -/

theorem test_decode_keygen : decode 0b0000000000_000000_00_000101_000_0_0001 = .ok (.keygen 5) := by decide
theorem test_decode_encD : decode 0b0000000000_100000_00_000011_000_0_0010 = .ok (.encD 3 32) := by decide
theorem test_decode_encT : decode 0b0000000000_100001_00_000100_000_1_0010 = .ok (.encT 4 33) := by decide
theorem test_decode_decD : decode 0b0000000000_011111_00_000100_000_0_0011 = .ok (.decD 4 31) := by decide
theorem test_decode_decT : decode 0b0000000000_111111_00_111111_000_1_0011 = .ok (.decT 63 63) := by decide
theorem test_decode_tinit : decode 0b0000000000_000000_00_000000_000_0_0100 = .ok .tinit := by decide
theorem test_encode_encT : encode (.encT 4 32) = 0x00200412 := by decide
theorem test_decode_illegal :
    decode 0x00000000 = .error .reservedOpcode ∧ decode 0x00000005 = .error .reservedOpcode ∧
    decode 0x0000000f = .error .reservedOpcode ∧ decode 0x00000411 = .error .reservedField ∧
    decode 0x00200492 = .error .reservedBits ∧ decode 0x00204402 = .error .reservedBits ∧
    decode 0x00600402 = .error .reservedBits ∧ decode 0x00010401 = .error .reservedField ∧
    decode 0x00000014 = .error .reservedField ∧ decode 0x00000404 = .error .reservedField ∧
    decode 0x80000002 = .error .reservedBits := by decide
theorem test_decodeTableWord : decodeTableWord 32 0x00200412 = some (.encT 4 32) := by decide

/-! ### Units: V-ROT, V-S, V-L, V-T, V-TT -/

theorem test_rotl : rotl32 0x80000001 1 = 0x00000003 ∧ rotl32 0x12345678 8 = 0x34567812 ∧
    rotr32 0x12345678 8 = 0x78123456 ∧ rotl32 0x12345678 32 = 0x12345678 := by decide
theorem test_sbox : sboxS 0x00 = 0xd6 ∧ sboxS 0x10 = 0x2b ∧ sboxS 0x7f = 0x9e ∧ sboxS 0x80 = 0xea ∧
    sboxS 0xfe = 0x39 ∧ sboxS 0xff = 0x48 := by decide +kernel
theorem test_L : diffusionL 0x000000ff = 0xfcffff03 ∧ diffusionL 0x01000000 = 0x05010404 := by decide
theorem test_LPrime : diffusionLPrime 0x000000ff = 0x7f9fe0ff ∧ diffusionLPrime 0x01000000 = 0x01008020 := by decide
theorem test_T : transformT 0x12345678 = 0xf32f23e8 ∧ transformT 0xf002c39e = 0x26d99622 := by decide +kernel
theorem test_TPrime : transformTPrime 0x12345678 = 0x87cd2df8 ∧ transformTPrime 0x8283cb69 = 0x53b37958 := by
  decide +kernel
theorem test_table_entries : tableEntry 0 0x01 = 0xd0924242 ∧ tableEntry 1 0x01 = 0x42d09242 ∧
    tableEntry 2 0x01 = 0x4242d092 ∧ tableEntry 3 0x01 = 0x924242d0 := by decide +kernel
theorem test_ttab : ttab buildTables 0x01234567 = 0x6ef180c9 ∧ ttab buildTables 0x000000ff = 0xc72121bd := by
  decide +kernel

/-! ### One step of each command -/

/-- V-KS1: RK[0] and RK[31] of the key of V-KAT1. -/
theorem test_keygen : after (fun t => (t.core.rk[0], t.core.rk[31], t.core.err))
    (step { kat katText false [cmd 0x00000401] with core.rk := tabulate 32 fun _ => 7 }) =
      some (0xf12186f9, 0x9124a012, 0x0) := by decide +kernel

/-- V-ERR1: a 3-word key. -/
theorem test_keygen_short : after (fun t => (t.core.rk[0], statusWord t.core)) (step (start true [cmd 0x00000301])) =
    some (7, 0x101) := by decide +kernel

/-- V-KAT1. -/
theorem test_encD : after (fun t => t.core.blk) (step (kat katText false [cmd 0x00200402])) = some katCipher := by
  decide +kernel

/-- V-ERR4. -/
theorem test_encD_length : status (step (start false [cmd 0x00200502])) = some 0x001 := by decide +kernel

/-- V-ENCT1. -/
theorem test_encT : after (fun t => t.core.blk) (step (kat katText true [cmd 0x00200412])) = some katCipher := by
  decide +kernel

/-- V-NI1 with TV = 0. -/
theorem test_encT_not_initialized : after (fun t => (t.core.blk[0], statusWord t.core))
    (step (kat katText false [cmd 0x00200412])) = some (0x01234567, 0x002) := by decide +kernel

/-- V-DEC2: decrypting the plaintext. -/
theorem test_decD : after (fun t => t.core.blk.toList) (step (kat katText false [cmd 0x00200403])) =
    some [0x9338375e, 0x82eec1cb, 0xbef65edf, 0x8757a631] := by decide +kernel

/-- V-ERR7. -/
theorem test_decD_length : status (step (start true [cmd 0x001f0403])) = some 0x101 := by decide +kernel

/-- V-ENCT1, back. -/
theorem test_decT : after (fun t => t.core.blk) (step (kat katCipher true [cmd 0x00200413])) = some katText := by
  decide +kernel

/-- V-ERR8: INVALID_LENGTH takes priority over NOT_INITIALIZED. -/
theorem test_decT_priority : status (step (start false [cmd 0x00210413])) = some 0x001 := by decide +kernel

/-- V-OK2 and V-TB5: TINIT from TV = 0 and tables of another content. -/
theorem test_tinit : after (fun t => (statusWord t.core, tableRead t.core.tbl 0 0xff, tableRead t.core.tbl 3 0xff))
    (step { start false [cmd 0x00000004] with core.tbl := tabulate 4 fun _ => tabulate 256 fun _ => 0 }) =
      some (0x100, 0x68492121, 0x49212168) := by decide +kernel

/-- V-ILL9: TINIT with V = 1 is illegal and leaves TV. -/
theorem test_tinit_illegal : status (step (start false [cmd 0x00000014])) = some 0x003 := by decide +kernel

/-- V-ILL5 and V-ILL11: ILLEGAL_COMMAND takes priority over the other two errors. -/
theorem test_illegal_priority : status (step (start false [cmd 0x00200492])) = some 0x003 ∧
    status (step (start true [cmd 0x80000002])) = some 0x103 := by decide +kernel

/-! ### Host accesses: V-BUS, V-RST -/

theorem test_read_cmd : after (fun t => t.reply) (step (kat katText false [.read 4 0x020])) = some (some 0) := by
  decide +kernel
theorem test_read_rk31 : after (fun t => t.reply) (step (kat katText false [.read 4 0x0FC])) = some (some 0x9124a012) := by
  decide +kernel
theorem test_write_status_ignored : status (step (kat katText false [.write 4 0x024 0xffffffff])) = some 0 := by
  decide +kernel
theorem test_write_rk_ignored : after (fun t => t.core.rk[0]) (step (kat katText false [.write 4 0x080 0])) =
    some 0xf12186f9 := by decide +kernel
theorem test_write_key2 : after (fun t => t.core.key.toList) (step (kat katText false [.write 4 0x008 0x11111111])) =
    some [0x01234567, 0x89abcdef, 0x11111111, 0x76543210] := by decide +kernel
theorem test_bus_errors : faultOf (step (start true [.read 4 0x028])) = some (.hostBusError 0x028) ∧
    faultOf (step (start true [.read 4 0x07C])) = some (.hostBusError 0x07C) ∧
    faultOf (step (start true [.write 4 0x002 0])) = some (.hostBusError 0x002) ∧
    faultOf (step (start true [.read 1 0x000])) = some (.hostBusError 0x000) := by decide +kernel
theorem test_status_after_reset : statusWord State.reset.core = 0 := by decide +kernel
theorem test_reset_clears_tv : status (step (start true [.reset])) = some 0 := by decide +kernel

/-- V-RST2: `enc.t` right after reset; every row of the table runs as the first command after reset. -/
theorem test_first_command_after_reset :
    status (step (State.reset.withFetchWord 32 0x00200412)) = some 0x002 ∧
    status (step (State.reset.withFetchWord 32 0x00000401)) = some 0x000 ∧
    status (step (State.reset.withFetchWord 32 0x00200402)) = some 0x000 ∧
    status (step (State.reset.withFetchWord 32 0x00200403)) = some 0x000 ∧
    status (step (State.reset.withFetchWord 32 0x00200413)) = some 0x002 ∧
    status (step (State.reset.withFetchWord 32 0x00000004)) = some 0x100 := by decide +kernel

/-! ### Host programs: 30_encoding R91, R92 -/

theorem test_assemble : (HostStmt.seq (.ldkey 1 2 3 4) (.repeatTimes 2 .encD)).assemble =
    some [.write 4 0x000 1, .write 4 0x004 2, .write 4 0x008 3, .write 4 0x00C 4,
      .write 4 0x020 0x00200402, .write 4 0x020 0x00200402] := by decide
theorem test_assemble_refused : (HostStmt.command (.keygen 64)).assemble = none := by decide
theorem test_text : (HostStmt.seq (.wr (.key 2) 0x11111111) (.command (.encD 4 31))).lines =
    ["wr KEY2, 0x11111111", "enc.d la=4, lb=31"] := by decide +kernel
theorem test_assembleText : assembleText ["ldblk 0, 0, 0, 0        ; offs 0x010..0x01C <- 0",
    "keygen la=3             ; off 0x020 <- 0x00000301", "cmd 0x00000005", "repeat 2 " ++ openBrace, "  enc.d", closeBrace,
    "rd RK0                  ; => 0x45603b23", "rd @0xFC"] =
    some [.write 4 0x010 0, .write 4 0x014 0, .write 4 0x018 0, .write 4 0x01C 0, .write 4 0x020 0x00000301,
      .write 4 0x020 0x00000005, .write 4 0x020 0x00200402, .write 4 0x020 0x00200402, .read 4 0x080,
      .read 4 0x0FC] := by decide +kernel
theorem test_assembleText_refused :
    assembleText ["wr KEY0, 4294967296"] = none ∧ assembleText ["wr KEY4, 0"] = none ∧
    assembleText ["enc.t la=64, lb=32"] = none ∧ assembleText ["enc.d la=4"] = none ∧
    assembleText [closeBrace] = none ∧ assembleText ["repeat 2 " ++ openBrace] = none := by decide +kernel
theorem test_assembleText_repeat_on_one_line :
    assembleText ["repeat 2 " ++ openBrace ++ " repeat 2 " ++ openBrace ++ " tinit " ++ closeBrace ++ closeBrace] =
      some (List.replicate 4 (.write 4 0x020 0x00000004)) := by decide +kernel

/-! ### Witnesses: concrete states and operands that meet the hypotheses of the statements -/

theorem witness_WordIsItsFourBytes : 3 < 4 ∧ 7 < 8 ∧ (byteAt 0x80000000 3).getLsbD 7 = true := by decide

theorem witness_RotationFormula : (1 ≤ 1 ∧ 1 ≤ 31) ∧ (1 ≤ 31 ∧ 31 ≤ 31) ∧ 32 ≤ 32 := by decide

theorem witness_SboxIsBijective : sboxS 0xff = sboxS 0xff := rfl

theorem witness_TauSubstitutesLaneByLane :
    3 < 4 ∧ byteAt 0x01234567 3 = byteAt 0x01ffffff 3 ∧ byteAt 0x01234567 0 = byteAt 0xffffff67 0 := by decide

theorem witness_DecoderFollowsTheMatchAndMaskTable : (start true []).core.tv = true := rfl

theorem witness_NoTwoRowsMatchOneWord :
    (Instr.encT 0 0).row.matchedBy 0x003f3f12 ∧ (Instr.encT 63 63).row.matchedBy 0x003f3f12 ∧
      ¬ (Instr.encD 63 63).row.matchedBy 0x003f3f12 := by
  refine ⟨?_, ?_, ?_⟩ <;> unfold CommandRow.matchedBy <;> decide

theorem witness_DecodeOfEncodeIsTheCommand : (Instr.encT 63 63).wellFormed = true ∧ (Instr.keygen 0).wellFormed = true := by
  decide

theorem witness_EncodeOfDecodeIsTheWord : decode 0x003f3f13 = .ok (.decT 63 63) ∧ decode 0x00000001 = .ok (.keygen 0) := by
  decide

/-- One word for each case of R89, and two legal words with an illegal length. -/
theorem witness_IllegalWordsChangeOnlyErr :
    (∀ w ∈ [0x00000000#32, 0x00000005#32, 0x0000000f#32, 0x00000081#32, 0x00008001#32, 0x80000001#32, 0x00000411#32,
      0x00000014#32, 0x00010401#32, 0x00000404#32, 0x00010004#32], ∃ e, decode w = .error e) ∧
    decode 0x00000501 = .ok (.keygen 5) ∧ decode 0x001f0402 = .ok (.encD 4 31) := by
  refine ⟨?_, by decide, by decide⟩
  intro w hw
  simp only [List.mem_cons, List.not_mem_nil, or_false] at hw
  rcases hw with rfl | rfl | rfl | rfl | rfl | rfl | rfl | rfl | rfl | rfl | rfl <;> exact ⟨_, rfl⟩

theorem witness_MnemonicsExpandToTheirWords : 63 ≤ 63 ∧ (63 < 64 ∨ 63 < 0) ∧ (63 < 0 ∨ 63 < 64) := by decide

/-- Every seed has an expansion buffer. -/
theorem expansion_of_seed (F : Word → Word) (k : Nat → Word) (w : Window) : ∃ X : Nat → Word,
    X 0 = w.x0 ∧ X 1 = w.x1 ∧ X 2 = w.x2 ∧ X 3 = w.x3 ∧ IsExpansion F k X :=
  ⟨fun n => (windowAfter F k w n).x0, rfl, rfl, rfl, rfl, fun i _ => windowAfter_recurrence F k w i⟩

theorem witness_KeyScheduleMeetsItsRecurrence : ∃ K : Nat → Word, (∀ j : Fin 4, K j = katText[j] ^^^ Config.fk[j]) ∧
    IsExpansion transformTPrime (wordAt Config.ck) K := by
  obtain ⟨X, h0, h1, h2, h3, hX⟩ := expansion_of_seed transformTPrime (wordAt Config.ck) (keySeed katText)
  exact ⟨X, fun j => by fin_cases j <;> assumption, hX⟩

theorem witness_KeyScheduleDependsOnKeyAlone :
    (kat katText false []).core.key = (kat katCipher true []).core.key ∧
      (kat katText false []).core.blk ≠ (kat katCipher true []).core.blk := by
  refine ⟨rfl, by decide +kernel⟩

theorem witness_CryptMeetsItsRecurrence : ∃ X Y : Nat → Word, (∀ j : Fin 4, X j = katText[j]) ∧
    IsExpansion (roundTransform buildTables .direct) (fun i => wordAt katKeys i) X ∧ (∀ j : Fin 4, Y j = katText[j]) ∧
    IsExpansion (roundTransform buildTables .table) (fun i => wordAt katKeys (31 - i)) Y := by
  obtain ⟨X, h0, h1, h2, h3, hX⟩ :=
    expansion_of_seed (roundTransform buildTables .direct) (fun i => wordAt katKeys i) (blockSeed katText)
  obtain ⟨Y, g0, g1, g2, g3, hY⟩ :=
    expansion_of_seed (roundTransform buildTables .table) (fun i => wordAt katKeys (31 - i)) (blockSeed katText)
  exact ⟨X, Y, fun j => by fin_cases j <;> assumption, hX, fun j => by fin_cases j <;> assumption, hY⟩

theorem witness_CryptCommandsWriteOnlyBlockAndErr : (kat katText true []).core.tv = true := rfl

theorem witness_DecryptUndoesEncrypt :
    (Variant.table = .table ∨ Variant.direct = .table → buildTables = buildTables) ∧
    (Variant.direct = .table ∨ Variant.direct = .table → (tabulate 4 fun _ => tabulate 256 fun _ => 0) = buildTables) :=
  ⟨fun _ => rfl, fun h => by rcases h with h | h <;> cases h⟩

theorem witness_EncThenDecRestoresTheMachine :
    MachineInv (kat katText true []) ∧ (kat katText true []).core.tv = true ∧ MachineInv (kat katText false []) :=
  ⟨⟨fun _ => rfl, by simp [ErrLegal, kat]⟩, rfl, ⟨fun _ => rfl, by simp [ErrLegal, kat]⟩⟩

theorem witness_DecryptIsEncryptWithReversedSchedule :
    ∀ i : Fin 32, (tabulate 32 fun i => wordAt katKeys (31 - i))[i] = wordAt katKeys (31 - i) :=
  fun i => getElem_tabulate _ i.val i.isLt

theorem witness_VariantsAreEquivalent :
    MachineInv (kat katText true []) ∧ (kat katText true []).core.tv = true :=
  ⟨witness_EncThenDecRestoresTheMachine.1, rfl⟩

/-- Two states with different unbuilt tables, before a read and before TINIT. -/
theorem witness_UnbuiltTablesAreUnobservable :
    let s := start false [.read 4 0x024, cmd 0x00000004]
    let s' : State := { s with core.tbl := tabulate 4 fun _ => tabulate 256 fun _ => 0 }
    SameButUnbuiltTables s s' ∧ (∃ t, step s = .next t) ∧ tableRead s.core.tbl 0 0 ≠ tableRead s'.core.tbl 0 0 :=
  ⟨⟨rfl, rfl, rfl, rfl, rfl, rfl, rfl, rfl, fun h => Bool.noConfusion h⟩, ⟨_, rfl⟩, by decide +kernel⟩

theorem witness_FailedCommandChangesOnlyErr : ∃ t, issue 0 (start true []) = .next t ∧ t.core.err ≠ 0x0 :=
  ⟨_, rfl, by decide⟩

theorem witness_CommandErrorsByCommand : (5 ≠ 4 ∧ (4 ≠ 4 ∨ 31 ≠ 32)) ∧ (start false []).core.tv = false :=
  ⟨by decide, rfl⟩

theorem witness_AnsweredProgramsRunToTheirEnd :
    SafeProgram [.read 4 0x000, .write 4 0x0FC 0, cmd 0x00200412, .reset] := by
  intro a ha
  simp only [List.mem_cons, List.not_mem_nil, or_false] at ha
  rcases ha with rfl | rfl | rfl | rfl
  · exact ⟨.key 0, by decide⟩
  · exact ⟨.rk 31, by decide⟩
  · exact ⟨.cmd, by decide⟩
  · trivial

theorem witness_AnsweredActionsStepToTheRest :
    SafeProgram (start true [.read 4 0x000, .write 4 0x0FC 0, cmd 0x00200412, .reset]).pending ∧
      SafeProgram (start true []).pending :=
  ⟨witness_AnsweredProgramsRunToTheirEnd, fun _ h => absurd h (by simp [start])⟩

/-- The first and last register of each array, and the two others. -/
theorem witness_ReadReturnsTheRegister :
    ∀ off ∈ [0x000, 0x00C, 0x010, 0x01C, 0x020, 0x024, 0x080, 0x0FC],
      (start true [.read 4 off]).pending = .read 4 off :: [] := fun _ _ => rfl

theorem witness_WriteStoresOneWordOrIsIgnored :
    ∀ off ∈ [0x000, 0x00C, 0x010, 0x01C, 0x020, 0x024, 0x080, 0x0FC],
      (start true [.write 4 off 5]).pending = .write 4 off 5 :: [] := fun _ _ => rfl

/-- A bad access for each clause, the accesses just beside the hole, and one outside the window. -/
theorem witness_BusErrorExactlyOnBadAccesses :
    access 4 0x028 = .busError ∧ access 4 0x07C = .busError ∧ access 4 0x002 = .busError ∧ access 2 0x000 = .busError ∧
      access 4 0x024 = .reg .status ∧ access 4 0x080 = .reg (.rk 0) ∧ access 4 0x100 = .outside := by decide

theorem witness_AccessOutsideTheWindowIsRefused :
    0x100 ≤ 0x100 ∧ (start true [.read 1 0x100]).pending = .read 1 0x100 :: [] := ⟨by decide, rfl⟩

theorem witness_StatusReadsOnlyDefinedBits : MachineInv (start true []) :=
  ⟨fun _ => rfl, by simp [ErrLegal, start]⟩

/-- The same register, and another one. -/
theorem witness_ReadAfterWrite :
    (start true [.write 4 (Reg.key 3).offset 5, .read 4 (Reg.key 3).offset]).pending =
      .write 4 (Reg.key 3).offset 5 :: .read 4 (Reg.key 3).offset :: [] ∧
    (start true [.write 4 (Reg.blk 0).offset 5, .read 4 (Reg.rk 31).offset]).pending =
      .write 4 (Reg.blk 0).offset 5 :: .read 4 (Reg.rk 31).offset :: [] ∧
    Reg.key 3 ≠ .cmd ∧ Reg.key 3 ≠ .status ∧ Reg.rk 31 ≠ .cmd ∧ Reg.rk 31 ≠ .status :=
  ⟨rfl, rfl, by decide, by decide, by decide, by decide⟩

/-- A host write changes KEY[3], one changes BLK[0], and ENC.D changes BLK[0]. -/
theorem witness_WhatChangesKeyAndBlock :
    after (fun t => t.core.key[3]) (step (start true [.write 4 0x00C 5])) = some 5 ∧
    after (fun t => t.core.blk[0]) (step (start true [.write 4 0x010 5])) = some 5 ∧
    after (fun t => t.core.blk[0]) (step (kat katText true [cmd 0x00200402])) = some 0x681edf34 := by decide +kernel

/-- KEYGEN changes RK[0]. -/
theorem witness_WhatChangesRoundKeys : ∃ t, step (start true [cmd 0x00000401]) = .next t ∧
    t.core.rk ≠ (start true [cmd 0x00000401]).core.rk := by
  refine ⟨_, rfl, fun h => ?_⟩
  have : (keySchedule (same4 0))[0] = (tabulate 32 fun _ => (7 : Word))[0] := congrArg (fun v => v[0]) h
  exact absurd this (by decide +kernel)

/-- TINIT sets TV, and a reset clears it. -/
theorem witness_WhatChangesTheTables :
    after (fun t => t.core.tv) (step (start false [cmd 0x00000004])) = some true ∧
    after (fun t => t.core.tv) (step (start true [.reset])) = some false ∧
    after (fun t => t.core.tv) (step (start true [cmd 0x00000401])) = some true := by decide +kernel

/-- An illegal command changes ERR; a read of STATUS leaves a next state. -/
theorem witness_WhatChangesErr :
    after (fun t => t.core.err) (step (start true [cmd 0])) = some 0x3 ∧
    after (fun t => t.core.err) (step (start true [.read 4 0x024])) = some 0x0 := by decide +kernel

theorem witness_ResetClearsTvAndErr : (start true [.reset]).pending = .reset :: [] := rfl

theorem witness_ResetTakesFreshDraws : (start true [.reset, .read 4 0]).pending = .reset :: [.read 4 0] := rfl

theorem witness_IdleCoreDoesNothing : State.reset.pending = [] := rfl

theorem witness_StepRunsTheDecodedCommand :
    (start true [cmd 0x00200402]).pending = .write 4 0x020 0x00200402 :: [] ∧
    decode 0x00200402 = .ok (.encD 4 32) ∧ decode 0x00000000 = .error .reservedOpcode :=
  ⟨rfl, by decide, by decide⟩

theorem witness_EveryStepKeepsTheInvariant :
    MachineInv (start false [cmd 0x00000004]) ∧ ∃ t, step (start false [cmd 0x00000004]) = .next t :=
  ⟨⟨fun _ => rfl, by simp [ErrLegal, start]⟩, ⟨_, rfl⟩⟩

end Sys2Proof.Tests
end

/-! PROOFS. Bytes and rotations of a word: the statements about 00_scope R13 and R14. -/

namespace Sys2Proof.Machine

/-! ### The bytes of a word -/

/-- Byte k reads the bits of the word from 8k up. -/
theorem getLsbD_byteAt (x : Word) (k j : Nat) (hj : j < 8) :
    (byteAt x k).getLsbD j = x.getLsbD (8 * k + j) := by
  simp [byteAt, hj]

/-- Bytes are adjacent slices, so joining them, most significant first, joins the slices back into one. -/
theorem wordOfBytes_byteAt (x : Word) :
    wordOfBytes (byteAt x 3) (byteAt x 2) (byteAt x 1) (byteAt x 0) = x := by
  unfold wordOfBytes byteAt
  rw [BitVec.extractLsb'_append_extractLsb'_eq_extractLsb' (by rfl),
    BitVec.extractLsb'_append_extractLsb'_eq_extractLsb' (by rfl),
    BitVec.extractLsb'_append_extractLsb'_eq_extractLsb' (by rfl)]
  exact BitVec.extractLsb'_eq_self

/-- Settles O1: a byte is a slice of the word, and the four slices are adjacent and cover it. -/
theorem wordIsItsFourBytes : Obligations.WordIsItsFourBytes :=
  ⟨fun x k j _ hj => getLsbD_byteAt x k j hj, wordOfBytes_byteAt⟩

/-! ### Rotations -/

/-- Only the amount modulo 32 matters. -/
theorem rotl32_mod (x : Word) (n : Nat) : rotl32 x (n % 32) = rotl32 x n :=
  BitVec.rotateLeft_mod_eq_rotateLeft

/-- Below 32 a rotation is the OR of the two shifts. At 0 the right shift is by the whole width and gives 0. -/
theorem rotl32_eq_shifts (x : Word) (n : Nat) (hn : n < 32) :
    rotl32 x n = x <<< n ||| x >>> (32 - n) := by
  rw [rotl32, BitVec.rotateLeft_def, Nat.mod_eq_of_lt hn]

/-- A rotation by 0 is the identity. -/
theorem rotl32_zero (x : Word) : rotl32 x 0 = x := by
  have hshift : x >>> 32 = 0#32 := BitVec.ushiftRight_eq_zero (Nat.le_refl 32)
  simp [rotl32_eq_shifts, hshift]

/-- Up to 32 a right rotation is the left rotation by what is missing to 32. -/
theorem rotr32_eq_rotl32 (x : Word) (n : Nat) (hn : n ≤ 32) : rotr32 x n = rotl32 x ((32 - n) % 32) := by
  have hamount : (32 - n % 32) % 32 = (32 - n) % 32 := by omega
  rw [rotr32, hamount]

/-- Settles O2: each clause is one of the lemmas on rotations above. -/
theorem rotationFormula : Obligations.RotationFormula :=
  ⟨fun x n _ hn => rotl32_eq_shifts x n (by omega), rotl32_zero,
    fun x n => (rotl32_mod x n).symm, rotr32_eq_rotl32⟩

end Sys2Proof.Machine

/-! PROOFS. The S-box and STATUS: the statements about 10_state R26 and R30. -/

namespace Sys2Proof.Machine

/-! ### The S-box -/

/-- No byte value occurs twice in the table of R29: R30's inspection of all 256 entries. -/
theorem sbox_nodup : Config.sbox.toList.Nodup := by decide +kernel

/-- S reads the table as a list. -/
theorem sboxS_eq_getElem_toList (b : Byte) :
    sboxS b = Config.sbox.toList[b.toNat]'(by rw [Vector.length_toList]; exact b.isLt) :=
  (Vector.getElem_toList _).symm

/-- Equal entries stand at equal indices, since no entry occurs twice. -/
theorem sboxS_injective : Function.Injective sboxS := fun a b h => by
  rw [sboxS_eq_getElem_toList, sboxS_eq_getElem_toList, sbox_nodup.getElem_inj_iff] at h
  exact BitVec.eq_of_toNat_eq h

/-- Settles O3: S is injective, and an injective map of a finite type to itself is surjective. -/
theorem sboxIsBijective : Obligations.SboxIsBijective :=
  ⟨fun _ _ h => sboxS_injective h, Finite.injective_iff_surjective.mp sboxS_injective⟩

/-! ### STATUS -/

/-- Bit 8 of STATUS is TV; every other bit is that of ERR, which has none from 4 up. -/
theorem getLsbD_statusWord (c : CoreState) (i : Nat) (hi : i < 32) :
    (statusWord c).getLsbD i = if i = 8 then c.tv else c.err.getLsbD i := by
  split
  case isTrue h8 =>
    subst h8
    simp [statusWord]
  case isFalse h8 =>
    have htv : i < 8 ∨ i - 8 ≠ 0 := by omega
    rcases htv with hlow | hhigh
    · simp [statusWord, hi, hlow]
    · simp [statusWord, hi, hhigh]

/-- ERR stands in bits 3:0. -/
theorem extractLsb'_statusWord_err (c : CoreState) : (statusWord c).extractLsb' 0 4 = c.err := by
  apply BitVec.eq_of_getLsbD_eq
  intro i hi
  simp [hi, getLsbD_statusWord c i (by omega), show i ≠ 8 by omega]

/-- A field above ERR that does not contain bit 8 is reserved and reads 0. -/
theorem extractLsb'_statusWord_reserved (c : CoreState) (start len : Nat) (herr : 4 ≤ start)
    (hword : start + len ≤ 32) (htv : start + len ≤ 8 ∨ 8 < start) :
    (statusWord c).extractLsb' start len = 0 := by
  apply BitVec.eq_of_getLsbD_eq
  intro i hi
  have hbit : (statusWord c).getLsbD (start + i) = false := by
    rw [getLsbD_statusWord c _ (by omega), if_neg (by omega), BitVec.getLsbD_of_ge _ _ (by omega)]
  simp [hbit]

/-- Settles O44: the fields by the lemmas above; the formula, the ignored write and the reset values are the model's own
definitions. -/
theorem statusLayout : Obligations.StatusLayout := by
  refine ⟨fun c => ⟨?err, ?low, ?tv, ?high, ?formula⟩, ?write, ?resetTv, ?resetErr⟩
  case err => exact extractLsb'_statusWord_err c
  case low => exact extractLsb'_statusWord_reserved c 4 4 (by decide) (by decide) (.inl (by decide))
  case tv => exact getLsbD_statusWord c 8 (by decide)
  case high => exact extractLsb'_statusWord_reserved c 9 23 (by decide) (by decide) (.inr (by decide))
  case formula => rfl
  case write => exact fun _ _ => rfl
  case resetTv => exact CoreState.afterReset_tv 0
  case resetErr => exact CoreState.afterReset_err 0

end Sys2Proof.Machine

/-! PROOFS. Host accesses: the statements about 20_memory R52, R53 and R56. -/

namespace Sys2Proof.Machine

/-! ### One step that accesses a register -/

/-- A word read of a register answers with its value; the core stays (R53). -/
theorem step_read {s : State} (r : Reg) {rest : List HostAction} (h : s.pending = .read 4 r.offset :: rest) :
    step s = .next { s with pending := rest, reply := some (readReg r s.core) } := by
  rw [step_perform h, perform_read]
  rfl

/-- A word write to a register is `writeReg`, once the action has been taken (R52). -/
theorem step_write {s : State} (r : Reg) {v : Word} {rest : List HostAction}
    (h : s.pending = .write 4 r.offset v :: rest) : step s = writeReg r v (s.takeAction rest) := by
  rw [step_perform h, perform_write]

/-- Settles O40: each mapped offset is that of a register, and its read is `step_read`. -/
theorem readReturnsTheRegister : Obligations.ReadReturnsTheRegister := by
  intro s rest
  refine ⟨fun i => ?key, fun i => ?blk, ?cmd, ?status, fun i => ?rk⟩
  case key => exact step_read (.key i)
  case blk => exact step_read (.blk i)
  case cmd => exact step_read .cmd
  case status => exact step_read .status
  case rk => exact step_read (.rk i)

/-! ### One word of KEY or BLK -/

/-- Setting word `i` of a vector leaves every other word as it was. -/
theorem getElem_set_word {n : Nat} (x : Vector Word n) (i j : Fin n) (v : Word) :
    (x.set i v)[j] = if j = i then v else x[j] := by
  simp [Vector.getElem_set, Fin.ext_iff, eq_comm]

/-- Settles O41: each mapped offset is that of a register, its write is `step_write`, and a write to KEY or BLK sets one
word of the vector. -/
theorem writeStoresOneWordOrIsIgnored : Obligations.WriteStoresOneWordOrIsIgnored := by
  intro s rest v
  refine ⟨fun i h => ?key, fun i h => ?blk, ?cmd, ?status, fun i => ?rk⟩
  case key => exact ⟨_, step_write (.key i) h, fun j => getElem_set_word s.core.key i j v, rfl⟩
  case blk => exact ⟨_, step_write (.blk i) h, fun j => getElem_set_word s.core.blk i j v, rfl⟩
  case cmd => exact step_write .cmd
  case status => exact step_write .status
  case rk => exact step_write (.rk i)

end Sys2Proof.Machine

/-! PROOFS. The command word: the statements about 30_encoding R80, R87, R89, R90 and R92. -/

namespace Sys2Proof.Machine

/-- Settles O9: the seven fields, joined from the top, are the word. -/
theorem commandWordIsItsFields : Obligations.CommandWordIsItsFields := fields_join

/-! ### The match and mask table (R87) -/

/-- Two joins of fields of the same widths are equal field by field. -/
theorem append_eq_append_iff {m n : Nat} {x x' : BitVec m} {y y' : BitVec n} :
    x ++ y = x' ++ y' ↔ x = x' ∧ y = y' := by
  constructor
  · intro h
    have hx := congrArg (BitVec.extractLsb' n m) h
    have hy := congrArg (BitVec.extractLsb' 0 n) h
    rw [BitVec.extractLsb'_append_eq_left, BitVec.extractLsb'_append_eq_left] at hx
    rw [BitVec.extractLsb'_append_eq_right, BitVec.extractLsb'_append_eq_right] at hy
    exact ⟨hx, hy⟩
  · rintro ⟨rfl, rfl⟩
    rfl

/-- The mask of a row: the reserved fields, V and OP are fixed, and LB and LA where the row does not use them. -/
def rowMask (lbMask laMask : BitVec 6) : Word :=
  BitVec.allOnes 10 ++ lbMask ++ BitVec.allOnes 2 ++ laMask ++ BitVec.allOnes 3 ++ BitVec.allOnes 1 ++ BitVec.allOnes 4

/-- A masked word equals a packed word field by field. -/
theorem and_rowMask_eq_packCommand (w : Word) (lbMask laMask lb la : BitVec 6) (v : BitVec 1) (op : BitVec 4) :
    w &&& rowMask lbMask laMask = packCommand lb la v op ↔
      reservedBitSet w = false ∧ opField w = op ∧ vField w = v ∧ laField w &&& laMask = la ∧
        lbField w &&& lbMask = lb := by
  rw [reservedBitSet_eq_false]
  conv_lhs => rw [← fields_join w, rowMask, packCommand]
  -- The lemmas on joins want the width as the sum of the seven widths, where `Word` has 32.
  change (_ &&& _ : BitVec (10 + 6 + 2 + 6 + 3 + 1 + 4)) = _ ↔ _
  simp only [BitVec.and_append, BitVec.and_allOnes, append_eq_append_iff]
  tauto

/-- The row of KEYGEN: the mask leaves LA free. -/
theorem matches_keygen_row (w : Word) :
    w &&& 0xFFFFC0FF = 0x00000001 ↔ reservedBitSet w = false ∧ opField w = 1 ∧ vField w = 0 ∧ lbField w = 0 := by
  have hmask : (0xFFFFC0FF : Word) = rowMask 63 0 := by decide
  have hmatch : (0x00000001 : Word) = packCommand 0 0 0 1 := by decide
  have hlb : lbField w &&& 63 = lbField w := BitVec.and_allOnes
  rw [hmask, hmatch, and_rowMask_eq_packCommand, hlb]
  simp

/-- The rows of ENC and DEC: the mask leaves LA and LB free. -/
theorem matches_crypt_row (w : Word) (v : BitVec 1) (op : BitVec 4) :
    w &&& 0xFFC0C0FF = packCommand 0 0 v op ↔ reservedBitSet w = false ∧ opField w = op ∧ vField w = v := by
  have hmask : (0xFFC0C0FF : Word) = rowMask 0 0 := by decide
  rw [hmask, and_rowMask_eq_packCommand]
  simp

/-- The row of TINIT fixes every bit. -/
theorem matches_tinit_row (w : Word) :
    w &&& 0xFFFFFFFF = 0x00000004 ↔
      reservedBitSet w = false ∧ opField w = 4 ∧ vField w = 0 ∧ laField w = 0 ∧ lbField w = 0 := by
  have hmask : (0xFFFFFFFF : Word) = rowMask 63 63 := by decide
  have hmatch : (0x00000004 : Word) = packCommand 0 0 0 4 := by decide
  have hlb : lbField w &&& 63 = lbField w := BitVec.and_allOnes
  have hla : laField w &&& 63 = laField w := BitVec.and_allOnes
  rw [hmask, hmatch, and_rowMask_eq_packCommand, hlb, hla]

/-- A word decodes to KEYGEN exactly when it matches KEYGEN's row; so for each command below. -/
theorem decode_keygen_iff_matches (w : Word) :
    decode w = .ok (.keygen (laField w).toNat) ↔ w &&& 0xFFFFC0FF = 0x00000001 := by
  rw [matches_keygen_row, decode_ok_iff]
  simp

theorem decode_encD_iff_matches (w : Word) :
    decode w = .ok (.encD (laField w).toNat (lbField w).toNat) ↔ w &&& 0xFFC0C0FF = 0x00000002 := by
  rw [show (0x00000002 : Word) = packCommand 0 0 0 2 by decide, matches_crypt_row, decode_ok_iff]
  simp

theorem decode_encT_iff_matches (w : Word) :
    decode w = .ok (.encT (laField w).toNat (lbField w).toNat) ↔ w &&& 0xFFC0C0FF = 0x00000012 := by
  rw [show (0x00000012 : Word) = packCommand 0 0 1 2 by decide, matches_crypt_row, decode_ok_iff]
  simp

theorem decode_decD_iff_matches (w : Word) :
    decode w = .ok (.decD (laField w).toNat (lbField w).toNat) ↔ w &&& 0xFFC0C0FF = 0x00000003 := by
  rw [show (0x00000003 : Word) = packCommand 0 0 0 3 by decide, matches_crypt_row, decode_ok_iff]
  simp

theorem decode_decT_iff_matches (w : Word) :
    decode w = .ok (.decT (laField w).toNat (lbField w).toNat) ↔ w &&& 0xFFC0C0FF = 0x00000013 := by
  rw [show (0x00000013 : Word) = packCommand 0 0 1 3 by decide, matches_crypt_row, decode_ok_iff]
  simp

theorem decode_tinit_iff_matches (w : Word) : decode w = .ok .tinit ↔ w &&& 0xFFFFFFFF = 0x00000004 := by
  rw [matches_tinit_row, decode_ok_iff]
  simp

/-- What a word decodes to is one of the six commands, with the word's own lengths. -/
theorem exists_decode_ok_iff (w : Word) :
    (∃ i, decode w = .ok i) ↔
      decode w = .ok (.keygen (laField w).toNat) ∨
      decode w = .ok (.encD (laField w).toNat (lbField w).toNat) ∨
      decode w = .ok (.encT (laField w).toNat (lbField w).toNat) ∨
      decode w = .ok (.decD (laField w).toNat (lbField w).toNat) ∨
      decode w = .ok (.decT (laField w).toNat (lbField w).toNat) ∨ decode w = .ok .tinit := by
  constructor
  · rintro ⟨i, hi⟩
    obtain ⟨-, hrow⟩ := (decode_ok_iff w i).mp hi
    rcases hrow with ⟨-, -, -, rfl⟩ | ⟨-, -, rfl⟩ | ⟨-, -, rfl⟩ | ⟨-, -, rfl⟩ | ⟨-, -, rfl⟩ | ⟨-, -, -, -, rfl⟩ <;>
      simp [hi]
  · rintro (h | h | h | h | h | h) <;> exact ⟨_, h⟩

/-- A command that succeeds answers the state with its result in the core: the converse of `issue_cases`. -/
theorem issue_of_succeeds {w : Word} {s : State} {c : CoreState} (h : Succeeds w s.core c) :
    issue w s = .next { s with core := c } := by
  cases h with
  | keygen => rfl
  | encD => rfl
  | encT _ htv =>
    rw [issue_ok (i := .encT 4 32) (by decide), exec_encT, State.onCore, cryptCommand_runs _ _ _ fun _ => htv]
  | decD => rfl
  | decT _ htv =>
    rw [issue_ok (i := .decT 4 32) (by decide), exec_decT, State.onCore, cryptCommand_runs _ _ _ fun _ => htv]
  | tinit => rfl

/-- A canonical word that succeeds leaves ERR = OK. -/
theorem issue_err_of_succeeds {w : Word} {s : State} {c : CoreState} (h : Succeeds w s.core c) :
    ∃ t, issue w s = .next t ∧ t.core.err = 0x0 :=
  ⟨_, issue_of_succeeds h, h.err⟩

/-- Settles O11: the rows by the lemma of each row, the canonical words by evaluation and by `Succeeds`. -/
theorem decoderFollowsTheMatchAndMaskTable : Obligations.DecoderFollowsTheMatchAndMaskTable := by
  refine ⟨fun w => ⟨decode_keygen_iff_matches w, decode_encD_iff_matches w, decode_encT_iff_matches w,
    decode_decD_iff_matches w, decode_decT_iff_matches w, decode_tinit_iff_matches w, ?legal⟩,
    by decide, by decide, by decide, by decide, by decide, by decide, fun s => ⟨?direct, fun htv => ?table⟩⟩
  case legal =>
    rw [exists_decode_ok_iff, decode_keygen_iff_matches, decode_encD_iff_matches, decode_encT_iff_matches,
      decode_decD_iff_matches, decode_decT_iff_matches, decode_tinit_iff_matches]
  case direct =>
    simp only [List.forall_mem_cons, List.not_mem_nil, false_imp_iff, implies_true, and_true]
    exact ⟨issue_err_of_succeeds (.keygen _), issue_err_of_succeeds (.encD _), issue_err_of_succeeds (.decD _),
      issue_err_of_succeeds (.tinit _)⟩
  case table =>
    simp only [List.forall_mem_cons, List.not_mem_nil, false_imp_iff, implies_true, and_true]
    exact ⟨issue_err_of_succeeds (.encT _ htv), issue_err_of_succeeds (.decT _ htv)⟩

/-! ### Legal and illegal words by their fields (R87, R89) -/

/-- The legal words by their fields: R87's rows with V of ENC and DEC left free. -/
theorem exists_decode_ok_iff_fields (w : Word) :
    (∃ i, decode w = .ok i) ↔ reservedBitSet w = false ∧
      ((opField w = 1 ∧ vField w = 0 ∧ lbField w = 0) ∨ (opField w = 2 ∨ opField w = 3) ∨
        (opField w = 4 ∧ vField w = 0 ∧ laField w = 0 ∧ lbField w = 0)) := by
  rw [exists_decode_ok_iff]
  simp only [decode_ok_iff]
  -- Left are the fields that the six rows fix; V of ENC and DEC is 0 or 1.
  have hv := vField_cases w
  grind

/-- A word is illegal exactly when it is not legal. -/
theorem exists_decode_error_iff_not_ok (w : Word) : (∃ e, decode w = .error e) ↔ ¬ ∃ i, decode w = .ok i := by
  cases decode w <;> simp

/-- OP is one of the four operations or one of the values that R81 leaves illegal. -/
theorem opField_cases (w : Word) :
    opField w = 1 ∨ opField w = 2 ∨ opField w = 3 ∨ opField w = 4 ∨ opField w = 0 ∨ 5 ≤ (opField w).toNat := by
  have hop : ∀ op : BitVec 4, op = 1 ∨ op = 2 ∨ op = 3 ∨ op = 4 ∨ op = 0 ∨ 5 ≤ op.toNat := by decide
  exact hop _

/-- The list of R89. -/
theorem exists_decode_error_iff (w : Word) :
    (∃ e, decode w = .error e) ↔
      opField w = 0 ∨ 5 ≤ (opField w).toNat ∨ rsv0Field w ≠ 0 ∨ rsv1Field w ≠ 0 ∨ rsv2Field w ≠ 0 ∨
      (vField w = 1 ∧ (opField w = 1 ∨ opField w = 4)) ∨ (lbField w ≠ 0 ∧ opField w = 1) ∨
      ((laField w ≠ 0 ∨ lbField w ≠ 0) ∧ opField w = 4) := by
  rw [exists_decode_error_iff_not_ok, exists_decode_ok_iff_fields, reservedBitSet_eq_false]
  have hv : vField w = 1 ↔ vField w ≠ 0 := by rcases vField_cases w with h | h <;> simp [h]
  rw [hv]
  have hrows : ∀ op : BitVec 4, 5 ≤ op.toNat → op ≠ 1 ∧ op ≠ 2 ∧ op ≠ 3 ∧ op ≠ 4 := by decide
  have hhigh := hrows (opField w)
  -- Once OP is known, both sides speak of V, LA, LB and the reserved fields only.
  rcases opField_cases w with ho | ho | ho | ho | ho | hge <;> grind

/-- A reserved bit. -/
theorem decode_reservedBits {w : Word} (h : rsv0Field w ≠ 0 ∨ rsv1Field w ≠ 0 ∨ rsv2Field w ≠ 0) :
    decode w = .error .reservedBits := by
  have hr : reservedBitSet w = true := by simpa [reservedBitSet, or_assoc] using h
  rw [decode, if_pos hr]

/-- A field that KEYGEN does not use. -/
theorem decode_keygen_reservedField {w : Word} (hr : reservedBitSet w = false) (ho : opField w = 1)
    (h : vField w ≠ 0 ∨ lbField w ≠ 0) : decode w = .error .reservedField := by
  have hfield : ¬ (vField w = 0 ∧ lbField w = 0) := by tauto
  simp only [decode, hr, ho, hfield]
  rfl

/-- A field that TINIT does not use. -/
theorem decode_tinit_reservedField {w : Word} (hr : reservedBitSet w = false) (ho : opField w = 4)
    (h : vField w ≠ 0 ∨ laField w ≠ 0 ∨ lbField w ≠ 0) : decode w = .error .reservedField := by
  have hfield : ¬ (vField w = 0 ∧ laField w = 0 ∧ lbField w = 0) := by tauto
  simp only [decode, hr, ho, hfield]
  rfl

/-- An operation that R81 leaves illegal. -/
theorem decode_reservedOpcode {w : Word} (hr : reservedBitSet w = false) (h1 : opField w ≠ 1)
    (h23 : ¬ (opField w = 2 ∨ opField w = 3)) (h4 : opField w ≠ 4) : decode w = .error .reservedOpcode := by
  obtain ⟨h2, h3⟩ := not_or.mp h23
  simp only [decode, hr, h1, h2, h3, h4]
  rfl

/-! ### What issuing a word does (R89, R90) -/

/-- A field holds a number exactly when its value does. -/
theorem field_ne_iff {n k : Nat} (hk : k < 2 ^ n) (x : BitVec n) : x ≠ BitVec.ofNat n k ↔ x.toNat ≠ k := by
  rw [ne_eq, BitVec.toNat_eq, BitVec.toNat_ofNat, Nat.mod_eq_of_lt hk]

/-- The words of KEYGEN. -/
theorem issue_keygen {w : Word} (hr : reservedBitSet w = false) (ho : opField w = 1) (hv : vField w = 0)
    (hlb : lbField w = 0) (s : State) : issue w s = .next (s.onCore (keygenCommand (laField w).toNat)) := by
  have hdecode : decode w = .ok (.keygen (laField w).toNat) := by simp [decode_ok_iff, hr, ho, hv, hlb]
  rw [issue_ok hdecode, exec_keygen]

/-- The words of ENC and DEC, in both variants. -/
theorem issue_crypt {w : Word} (hr : reservedBitSet w = false) (ho : opField w = 2 ∨ opField w = 3) (s : State) :
    issue w s = .next (s.onCore (cryptCommand (if opField w = 2 then .encrypt else .decrypt)
      (if vField w = 0 then .direct else .table) (laField w).toNat (lbField w).toNat)) := by
  rcases ho with ho | ho <;> rcases vField_cases w with hv | hv
  · have hdecode : decode w = .ok (.encD (laField w).toNat (lbField w).toNat) := by simp [decode_ok_iff, hr, ho, hv]
    simp [issue_ok hdecode, exec_encD, ho, hv]
  · have hdecode : decode w = .ok (.encT (laField w).toNat (lbField w).toNat) := by simp [decode_ok_iff, hr, ho, hv]
    simp [issue_ok hdecode, exec_encT, ho, hv]
  · have hdecode : decode w = .ok (.decD (laField w).toNat (lbField w).toNat) := by simp [decode_ok_iff, hr, ho, hv]
    simp [issue_ok hdecode, exec_decD, ho, hv]
  · have hdecode : decode w = .ok (.decT (laField w).toNat (lbField w).toNat) := by simp [decode_ok_iff, hr, ho, hv]
    simp [issue_ok hdecode, exec_decT, ho, hv]

/-- The word of TINIT. -/
theorem issue_tinit {w : Word} (hr : reservedBitSet w = false) (ho : opField w = 4) (hv : vField w = 0)
    (hla : laField w = 0) (hlb : lbField w = 0) (s : State) :
    issue w s = .next { s with core := { s.core with tbl := buildTables, tv := true, err := 0x0 } } := by
  have hdecode : decode w = .ok .tinit := by simp [decode_ok_iff, hr, ho, hv, hla, hlb]
  rw [issue_ok hdecode, exec_tinit, State.onCore, tinitCommand_eq]

/-- An illegal word writes ILLEGAL_COMMAND to ERR and nothing else. -/
theorem issue_illegal {w : Word} (h : ∃ e, decode w = .error e) (s : State) :
    issue w s = .next { s with core := { s.core with err := 0x3 } } := by
  obtain ⟨e, he⟩ := h
  rw [issue_error he]
  rfl

/-- KEYGEN with another length than 4 writes INVALID_LENGTH and nothing else. -/
theorem issue_keygen_invalidLength {w : Word} (hr : reservedBitSet w = false) (ho : opField w = 1) (hv : vField w = 0)
    (hlb : lbField w = 0) (hla : laField w ≠ 4) (s : State) :
    issue w s = .next { s with core := { s.core with err := 0x1 } } := by
  rw [issue_keygen hr ho hv hlb, State.onCore, keygenCommand_illegal ((field_ne_iff (by decide) _).mp hla)]

/-- ENC or DEC with other lengths than 4 and 32 writes INVALID_LENGTH and nothing else. -/
theorem issue_crypt_invalidLength {w : Word} (hr : reservedBitSet w = false) (ho : opField w = 2 ∨ opField w = 3)
    (hlen : laField w ≠ 4 ∨ lbField w ≠ 32) (s : State) :
    issue w s = .next { s with core := { s.core with err := 0x1 } } := by
  have hlen' : (laField w).toNat ≠ 4 ∨ (lbField w).toNat ≠ 32 :=
    hlen.imp (field_ne_iff (by decide) _).mp (field_ne_iff (by decide) _).mp
  rw [issue_crypt hr ho, State.onCore, cryptCommand_illegal hlen']

/-- A legal KEYGEN writes the schedule (41 R133). -/
theorem issue_keygen_legal {w : Word} (hr : reservedBitSet w = false) (ho : opField w = 1) (hv : vField w = 0)
    (hlb : lbField w = 0) (hla : laField w = 4) (s : State) :
    issue w s = .next { s with core := { s.core with rk := keySchedule s.core.key, err := 0x0 } } := by
  have hlen : (laField w).toNat = 4 := by rw [hla]; rfl
  rw [issue_keygen hr ho hv hlb, hlen, State.onCore, keygenCommand_legal]

/-- The table variant of ENC or DEC with the legal lengths before TINIT writes NOT_INITIALIZED and nothing else. -/
theorem issue_crypt_notInitialized {w : Word} (hr : reservedBitSet w = false) (ho : opField w = 2 ∨ opField w = 3)
    (hla : laField w = 4) (hlb : lbField w = 32) (hv : vField w = 1) {s : State} (htv : s.core.tv = false) :
    issue w s = .next { s with core := { s.core with err := 0x2 } } := by
  have hvar : (if vField w = 0 then Variant.direct else Variant.table) = .table := by simp [hv]
  have hlen : (laField w).toNat = 4 ∧ (lbField w).toNat = 32 := by rw [hla, hlb]; exact ⟨rfl, rfl⟩
  rw [issue_crypt hr ho, hvar, hlen.1, hlen.2, State.onCore, cryptCommand_notInitialized _ _ htv]

/-- ENC or DEC with the legal lengths, and in the table variant with valid tables, transforms the block (42 R153). -/
theorem issue_crypt_runs {w : Word} (hr : reservedBitSet w = false) (ho : opField w = 2 ∨ opField w = 3)
    (hla : laField w = 4) (hlb : lbField w = 32) {s : State} (hinit : ¬ (vField w = 1 ∧ s.core.tv = false)) :
    issue w s = .next { s with core := { s.core with
      blk := crypt s.core.tbl s.core.blk s.core.rk (if opField w = 2 then .encrypt else .decrypt)
        (if vField w = 0 then .direct else .table)
      err := 0x0 } } := by
  have htables : (if vField w = 0 then Variant.direct else Variant.table) = .table → s.core.tv = true := by
    rcases vField_cases w with hv | hv
    · simp [hv]
    · simpa [hv] using hinit
  have hlen : (laField w).toNat = 4 ∧ (lbField w).toNat = 32 := by rw [hla, hlb]; exact ⟨rfl, rfl⟩
  rw [issue_crypt hr ho, hlen.1, hlen.2, State.onCore, cryptCommand_runs _ _ _ htables]

/-- Settles O15: R89's list, and what issuing a word does in each of its two cases. -/
theorem illegalWordsChangeOnlyErr : Obligations.IllegalWordsChangeOnlyErr := by
  intro w illegal
  have hiff : (∃ e, decode w = .error e) ↔ illegal := exists_decode_error_iff w
  refine ⟨hiff, fun h => issue_illegal (hiff.mpr h), fun hlegal hop hlen s => ?_⟩
  rw [← hiff, exists_decode_error_iff_not_ok, not_not, exists_decode_ok_iff_fields] at hlegal
  obtain ⟨hr, ⟨ho, hv, hlb⟩ | ho | ⟨ho, -⟩⟩ := hlegal
  · exact issue_keygen_invalidLength hr ho hv hlb (hlen.resolve_right fun h => h.1 ho) s
  · exact issue_crypt_invalidLength hr ho (hlen.imp_right And.right) s
  · exact absurd ho hop

/-- Settles O16: the pseudocode's tests in their order, with the lemma on issuing that each branch meets. -/
theorem issueFollowsItsPseudocode : Obligations.IssueFollowsItsPseudocode := by
  intro w s
  dsimp only
  rw [← rsv0Field, ← rsv1Field, ← rsv2Field, ← opField, ← vField, ← laField, ← lbField]
  split
  case isTrue hrsv => exact issue_illegal ⟨_, decode_reservedBits hrsv⟩ s
  case isFalse hrsv =>
  have hr : reservedBitSet w = false := (reservedBitSet_eq_false w).mpr (by tauto)
  split
  case isTrue ho =>
    split
    case isTrue hfield => exact issue_illegal ⟨_, decode_keygen_reservedField hr ho hfield⟩ s
    case isFalse hfield =>
    obtain ⟨hv, hlb⟩ : vField w = 0 ∧ lbField w = 0 := by tauto
    split
    case isTrue hla => exact issue_keygen_invalidLength hr ho hv hlb hla s
    case isFalse hla => exact issue_keygen_legal hr ho hv hlb (not_not.mp hla) s
  case isFalse h1 =>
  split
  case isTrue ho =>
    split
    case isTrue hlen => exact issue_crypt_invalidLength hr ho hlen s
    case isFalse hlen =>
    obtain ⟨hla, hlb⟩ : laField w = 4 ∧ lbField w = 32 := by tauto
    split
    case isTrue hinit => exact issue_crypt_notInitialized hr ho hla hlb hinit.1 hinit.2
    case isFalse hinit => exact issue_crypt_runs hr ho hla hlb hinit
  case isFalse h23 =>
  split
  case isTrue ho =>
    split
    case isTrue hfield => exact issue_illegal ⟨_, decode_tinit_reservedField hr ho hfield⟩ s
    case isFalse hfield =>
    obtain ⟨hv, hla, hlb⟩ : vField w = 0 ∧ laField w = 0 ∧ lbField w = 0 := by tauto
    exact issue_tinit hr ho hv hla hlb s
  case isFalse h4 => exact issue_illegal ⟨_, decode_reservedOpcode hr h1 h23 h4⟩ s

/-! ### The mnemonics (R92) -/

/-- Lengths that fit their fields shift into place, and so do V and OP (R92). -/
theorem packCommand_eq_shifts {n m : Nat} (hn : n ≤ 63) (hm : m ≤ 63) (v : BitVec 1) (op : BitVec 4) :
    packCommand (BitVec.ofNat 6 m) (BitVec.ofNat 6 n) v op =
      BitVec.ofNat 32 (m <<< 16 ||| n <<< 8 ||| v.toNat <<< 4 ||| op.toNat) := by
  have hn' : n % 2 ^ 6 = n := Nat.mod_eq_of_lt (by omega)
  have hm' : m % 2 ^ 6 = m := Nat.mod_eq_of_lt (by omega)
  have hvalue : (packCommand (BitVec.ofNat 6 m) (BitVec.ofNat 6 n) v op).toNat =
      m <<< 16 ||| n <<< 8 ||| v.toNat <<< 4 ||| op.toNat := by
    simp only [packCommand, BitVec.toNat_append, BitVec.toNat_ofNat, hn', hm', Nat.shiftLeft_or_distrib,
      ← Nat.shiftLeft_add, Nat.zero_mod, Nat.zero_shiftLeft, Nat.zero_or, Nat.or_zero]
  rw [← hvalue, BitVec.ofNat_toNat, BitVec.setWidth_eq]

/-- A command whose lengths fit assembles to one write of its word to CMD. -/
theorem assemble_command {i : Instr} (h : i.wellFormed = true) :
    (HostStmt.command i).assemble = some [.write 4 0x020 (encode i)] := by
  rw [HostStmt.assemble, if_pos h]
  rfl

/-- The formula of R92 for a command with these fields. -/
theorem assemble_command_eq_shifts {i : Instr} {n m : Nat} {v : BitVec 1} {op : BitVec 4} (h : i.wellFormed = true)
    (hn : n ≤ 63) (hm : m ≤ 63) (hword : encode i = packCommand (BitVec.ofNat 6 m) (BitVec.ofNat 6 n) v op) :
    (HostStmt.command i).assemble =
      some [.write 4 0x020 (BitVec.ofNat 32 (m <<< 16 ||| n <<< 8 ||| v.toNat <<< 4 ||| op.toNat))] := by
  rw [assemble_command h, hword, packCommand_eq_shifts hn hm]

/-- A command with a length that does not fit is refused. -/
theorem assemble_command_refused {i : Instr} (h : i.wellFormed = false) : (HostStmt.command i).assemble = none := by
  simp [HostStmt.assemble, h]

/-- Settles O17: a command whose lengths fit is one write of its word, which is the table's formula; the other
mnemonics by evaluation. -/
theorem mnemonicsExpandToTheirWords : Obligations.MnemonicsExpandToTheirWords := by
  refine ⟨rfl, rfl, rfl, rfl, rfl, rfl, rfl, rfl, fun n hn => ?keygen, fun n m hn hm => ?crypt,
    fun n m h => ?cryptRefused, fun n h => ?keygenRefused, fun _ => rfl, fun _ _ _ _ => ⟨rfl, rfl⟩⟩
  case keygen =>
    have hfits : lengthFits n = true := decide_eq_true (by omega)
    simpa using assemble_command_eq_shifts (i := .keygen n) (m := 0) hfits hn (by decide) rfl
  case crypt =>
    have hfits : (lengthFits n && lengthFits m) = true := by
      simp [lengthFits, show n < 64 by omega, show m < 64 by omega]
    exact ⟨by simpa using assemble_command_eq_shifts (i := .encD n m) hfits hn hm rfl,
      by simpa using assemble_command_eq_shifts (i := .encT n m) hfits hn hm rfl,
      by simpa using assemble_command_eq_shifts (i := .decD n m) hfits hn hm rfl,
      by simpa using assemble_command_eq_shifts (i := .decT n m) hfits hn hm rfl⟩
  case cryptRefused =>
    have hfits : (lengthFits n && lengthFits m) = false := by
      simpa [lengthFits] using show n < 64 → 64 ≤ m by omega
    exact ⟨assemble_command_refused hfits, assemble_command_refused hfits, assemble_command_refused hfits,
      assemble_command_refused hfits⟩
  case keygenRefused =>
    have hfits : lengthFits n = false := decide_eq_false (by omega)
    exact assemble_command_refused hfits

end Sys2Proof.Machine

/-! PROOFS. The diffusions L and L′: the statement about 40_sbox_diffusion R103 and R104. -/

namespace Sys2Proof.Machine

/-! ### Words whose bits are all equal -/

/-- A rotation only moves bits, so it fixes the words 0 and 0xffffffff. -/
theorem rotl32_fill (c : Bool) (n : Nat) : rotl32 (BitVec.fill 32 c) n = BitVec.fill 32 c := by
  apply BitVec.eq_of_getLsbD_eq
  intro i hi
  have hsource : (i + (32 - n % 32)) % 32 < 32 := Nat.mod_lt _ (by decide)
  rw [rotl32_bit _ _ _ hi, BitVec.getLsbD_fill, BitVec.getLsbD_fill]
  simp [hi, hsource]

/-- A word that every rotation fixes is a fixed point of L: an XOR of five copies of it, an odd number. -/
theorem diffusionL_eq_self {b : Word} (hfix : ∀ n, rotl32 b n = b) : diffusionL b = b := by
  simp [diffusionL, hfix]

/-- A word that every rotation fixes is a fixed point of L′: an XOR of three copies of it, an odd number. -/
theorem diffusionLPrime_eq_self {b : Word} (hfix : ∀ n, rotl32 b n = b) : diffusionLPrime b = b := by
  simp [diffusionLPrime, hfix]

/-- Settles O7: the formulas are the definitions, 0 and 0xffffffff are fixed points, and the other words are evaluated. -/
theorem diffusionFormulasAndCornerCases : Obligations.DiffusionFormulasAndCornerCases := by
  have hzero : ∀ n, rotl32 0 n = 0 := rotl32_fill false
  have hones : ∀ n, rotl32 0xffffffff n = 0xffffffff := rotl32_fill true
  exact ⟨fun _ => rfl, fun _ => rfl,
    diffusionL_eq_self hzero, diffusionL_eq_self hones, by decide, by decide, by decide,
    diffusionLPrime_eq_self hzero, diffusionLPrime_eq_self hones, by decide, by decide, by decide⟩

end Sys2Proof.Machine

/-! PROOFS. The key schedule and what changes RK: the statements about 41_key_schedule R131, R134 and R137. -/

namespace Sys2Proof.Machine

/-! ### The schedule is a slice of the expansion of the key (R134) -/

/-- A buffer that starts with key ⊕ FK starts with the seed. -/
theorem keySeed_eq_window {key : Vector Word 4} {K : Nat → Word} (hseed : ∀ j : Fin 4, K j = key[j] ^^^ Config.fk[j]) :
    keySeed key = ⟨K 0, K 1, K 2, K 3⟩ := by
  rw [Window.mk.injEq]
  exact ⟨(hseed 0).symm, (hseed 1).symm, (hseed 2).symm, (hseed 3).symm⟩

/-- Settles O19: after round i the window is K[i+1..i+4], and its newest word is RK[i]. -/
theorem keyScheduleMeetsItsRecurrence : Obligations.KeyScheduleMeetsItsRecurrence := by
  intro key K hseed hK i
  have hwindow := windowAfter_eq transformTPrime (wordAt Config.ck) K 32 hK (i + 1) i.isLt
  calc (keySchedule key)[i]
    _ = (windowAfter transformTPrime (wordAt Config.ck) (keySeed key) (i + 1)).x3 := keySchedule_get key i i.isLt
    _ = K (i + 1 + 3) := by rw [keySeed_eq_window hseed, hwindow]

/-! ### What changes RK (R137) -/

/-- Of the commands that succeed, KEYGEN alone writes RK. -/
theorem Succeeds.rk_eq_or_keygen {w : Word} {c d : CoreState} (h : Succeeds w c d) :
    d.rk = c.rk ∨ (w = 0x00000401 ∧ d.rk = keySchedule c.key) := by
  cases h with
  | keygen => exact .inr ⟨rfl, rfl⟩
  | encD => exact .inl rfl
  | encT => exact .inl rfl
  | decD => exact .inl rfl
  | decT => exact .inl rfl
  | tinit => exact .inl rfl

/-- Settles O48: a step that changes RK is neither idle nor a host access nor a failed command, so it is a reset or a
command that succeeds, and of those KEYGEN alone writes RK. -/
theorem whatChangesRoundKeys : Obligations.WhatChangesRoundKeys := by
  intro s t hstep hrk
  cases step_cases hstep with
  | idle => exact absurd rfl hrk
  | read => exact absurd rfl hrk
  | writeKey => exact absurd rfl hrk
  | writeBlk => exact absurd rfl hrk
  | ignored => exact absurd rfl hrk
  | fails => exact absurd rfl hrk
  | reset rest hpending => exact .inl ⟨rest, hpending⟩
  | succeeds w c rest hpending hc =>
    obtain ⟨rfl, hschedule⟩ := hc.rk_eq_or_keygen.resolve_left hrk
    exact .inr ⟨⟨rest, hpending⟩, hschedule, hc.err⟩

/-! ### The schedule is a function of KEY (R131) -/

/-- KEYGEN with the legal length leaves the schedule of KEY in RK. -/
@[simp] theorem keygenCommand_rk (c : CoreState) : (keygenCommand 4 c).rk = keySchedule c.key := by
  rw [keygenCommand_legal]

/-- Settles O21: in each state KEYGEN leaves the schedule of its KEY. -/
theorem keyScheduleDependsOnKeyAlone : Obligations.KeyScheduleDependsOnKeyAlone := by
  intro s s' hkey
  refine ⟨_, _, exec_keygen 4 s, exec_keygen 4 s', ?_⟩
  rw [State.onCore_core, State.onCore_core, keygenCommand_rk, keygenCommand_rk, hkey]

end Sys2Proof.Machine

/-! PROOFS. The transform by tables (43_table_transform R181, R185, R186), and the round engine: the statements about
42_round_engine R153, R159 and R162. -/

namespace Sys2Proof.Machine

/-! ### L is linear and commutes with rotation (40 R105) -/

theorem diffusionL_xor (a b : Word) : diffusionL (a ^^^ b) = diffusionL a ^^^ diffusionL b := by
  simp only [diffusionL, rotl32_xor]
  ac_rfl

/-- L is an XOR of rotations, and rotations commute. -/
theorem diffusionL_rotl32 (a : Word) (n : Nat) : diffusionL (rotl32 a n) = rotl32 (diffusionL a) n := by
  simp only [diffusionL, rotl32_xor, rotl32_rotl32, Nat.add_comm n]

/-! ### Byte lanes -/

/-- A byte moved up within the word is a rotation of it: no bit crosses the top. -/
theorem byteShifted_eq_rotl32 (b : Byte) (n : Nat) (hn : n ≤ 24) : byteShifted b n = rotl32 (b.setWidth 32) n := by
  have hcross : b.setWidth 32 >>> (32 - n) = 0#32 := by
    apply BitVec.eq_of_getLsbD_eq
    intro i _
    simp [show 8 ≤ 32 - n + i by omega]
  rw [rotl32_eq_shifts _ n (by omega), hcross, BitVec.or_zero, byteShifted]

/-- Rotating the top lane right by `8k` gives lane `3 − k`. -/
theorem rotr32_byteShifted (b : Byte) (k : Fin 4) : rotr32 (byteShifted b 24) (8 * k) = byteShifted b (24 - 8 * k) := by
  have hamount : (24 + (32 - 8 * k.val) % 32) % 32 = 24 - 8 * k.val := by omega
  rw [rotr32_eq_rotl32 _ _ (by omega), byteShifted_eq_rotl32 b 24 (by omega), rotl32_rotl32, ← rotl32_mod, hamount,
    byteShifted_eq_rotl32 b _ (by omega)]

/-- A word is the XOR of its four bytes, each in its lane. -/
theorem wordOfBytes_eq_xor (b3 b2 b1 b0 : Byte) :
    wordOfBytes b3 b2 b1 b0 = byteShifted b3 24 ^^^ byteShifted b2 16 ^^^ byteShifted b1 8 ^^^ byteShifted b0 0 := by
  apply BitVec.eq_of_getLsbD_eq
  intro i hi
  simp only [wordOfBytes, byteShifted, BitVec.getLsbD_append, BitVec.getLsbD_xor, BitVec.getLsbD_shiftLeft,
    BitVec.getLsbD_setWidth]
  interval_cases i <;> simp

/-! ### Valid tables compute T (43 R186) -/

/-- An entry of table k is the L-image of S(b) in lane 3 − k: L commutes with the rotation of 43 R181. -/
theorem tableEntry_eq_diffusionL (k : Fin 4) (b : Byte) :
    tableEntry k b = diffusionL (byteShifted (sboxS b) (24 - 8 * k)) := by
  rw [← rotr32_byteShifted]
  exact (diffusionL_rotl32 _ _).symm

/-- The four entries are the L-images of the four lanes of τ(v), and L is linear. -/
theorem ttab_buildTables (v : Word) : ttab buildTables v = transformT v := by
  simp only [ttab, tableRead_buildTables, tableEntry_eq_diffusionL, ← diffusionL_xor]
  rw [transformT, tau, wordOfBytes_eq_xor]
  rfl

/-- With valid tables, where they are used at all, the round transform is T (42 R152). -/
theorem roundTransform_eq_transformT {tbl : Vector (Vector Word 256) 4} {var : Variant}
    (htbl : var = .table → tbl = buildTables) : roundTransform tbl var = transformT := by
  cases var with
  | direct => rfl
  | table =>
    rw [htbl rfl]
    exact funext ttab_buildTables

/-! ### Crypt and its expansion buffer (42 R153) -/

/-- A buffer that starts with the block starts with the seed. -/
theorem blockSeed_eq_window {blk : Vector Word 4} {X : Nat → Word} (hseed : ∀ j : Fin 4, X j = blk[j]) :
    blockSeed blk = ⟨X 0, X 1, X 2, X 3⟩ := by
  rw [Window.mk.injEq]
  exact ⟨(hseed 0).symm, (hseed 1).symm, (hseed 2).symm, (hseed 3).symm⟩

/-- Every block has an expansion buffer. -/
theorem exists_expansion (F : Word → Word) (k : Nat → Word) (blk : Vector Word 4) :
    ∃ X : Nat → Word, (∀ j : Fin 4, X j = blk[j]) ∧ IsExpansion F k X := by
  refine ⟨fun n => (windowAfter F k (blockSeed blk) n).x0, fun j => ?_, fun i _ => windowAfter_recurrence F k _ i⟩
  match j with
  | 0 => rfl
  | 1 => rfl
  | 2 => rfl
  | 3 => rfl

/-- After 32 rounds the window is X[32..35], and Crypt returns it reversed. -/
theorem crypt_get {tbl : Vector (Vector Word 256) 4} {blk : Vector Word 4} {rk : Vector Word 32} {dir : Direction}
    {var : Variant} {X : Nat → Word} (hseed : ∀ j : Fin 4, X j = blk[j])
    (hX : IsExpansion (roundTransform tbl var) (fun i => wordAt rk (roundIndex dir i)) X) (j : Fin 4) :
    (crypt tbl blk rk dir var)[j] = X (35 - j) := by
  have hwindow := windowAfter_eq _ _ X 32 hX 32 (Nat.le_refl 32)
  rw [crypt, blockSeed_eq_window hseed, hwindow]
  match j with
  | 0 => rfl
  | 1 => rfl
  | 2 => rfl
  | 3 => rfl

/-- Settles O24: the two directions differ in the subkey index alone. -/
theorem cryptMeetsItsRecurrence : Obligations.CryptMeetsItsRecurrence :=
  fun _ _ _ _ _ hseed =>
    ⟨fun hX => crypt_get (dir := .encrypt) hseed hX, fun hX => crypt_get (dir := .decrypt) hseed hX⟩

/-! ### The commands (42 R162) -/

/-- Settles O25: each of the four is one run of the engine, with its own direction and variant. -/
theorem cryptCommandsWriteOnlyBlockAndErr : Obligations.CryptCommandsWriteOnlyBlockAndErr := by
  intro s runs
  have hruns (i : Instr) (dir : Direction) (var : Variant)
      (hexec : exec i s = .next (s.onCore (cryptCommand dir var 4 32))) (htv : var = .table → s.core.tv = true) :
      runs i (roundTransform s.core.tbl var) (fun n => wordAt s.core.rk (roundIndex dir n)) := by
    obtain ⟨X, hseed, hX⟩ := exists_expansion (roundTransform s.core.tbl var)
      (fun n => wordAt s.core.rk (roundIndex dir n)) s.core.blk
    rw [State.onCore, cryptCommand_runs dir var s.core htv] at hexec
    exact ⟨_, hexec, ⟨X, hseed, hX, crypt_get hseed hX⟩, rfl, rfl, rfl, rfl, rfl, rfl, rfl, rfl⟩
  exact ⟨hruns _ .encrypt .direct (exec_encD 4 32 s) nofun, hruns _ .decrypt .direct (exec_decD 4 32 s) nofun,
    fun htv => hruns _ .encrypt .table (exec_encT 4 32 s) fun _ => htv,
    fun htv => hruns _ .decrypt .table (exec_decT 4 32 s) fun _ => htv⟩

/-! ### The round trip (42 R159) -/

/-- An expansion buffer read backwards is an expansion with the subkeys in reverse order: XOR with the same transform
value undoes a round. -/
theorem IsExpansion.reverse {F : Word → Word} {k X : Nat → Word} (hX : IsExpansion F k X) :
    IsExpansion F (fun i => k (31 - i)) (fun n => X (35 - n)) := by
  intro i hi
  have hround := hX (31 - i) (by omega)
  have hsum : X (34 - i) ^^^ X (33 - i) ^^^ X (32 - i) = X (32 - i) ^^^ X (33 - i) ^^^ X (34 - i) := by ac_rfl
  rw [show 31 - i + 4 = 35 - i by omega, show 31 - i + 1 = 32 - i by omega, show 31 - i + 2 = 33 - i by omega,
    show 31 - i + 3 = 34 - i by omega] at hround
  simp only [Nat.reduceSubDiff]
  rw [hround, hsum, BitVec.xor_assoc, BitVec.xor_self, BitVec.xor_zero]

/-- Settles O27: decryption's buffer is encryption's, read backwards, so its last four words, reversed, are the block. -/
theorem decryptUndoesEncrypt : Obligations.DecryptUndoesEncrypt := by
  intro tbl P rk var var' htbl
  have hvar : roundTransform tbl var = transformT := roundTransform_eq_transformT fun h => htbl (.inl h)
  have hvar' : roundTransform tbl var' = transformT := roundTransform_eq_transformT fun h => htbl (.inr h)
  obtain ⟨X, hseed, hX⟩ := exists_expansion transformT (wordAt rk) P
  have hcipher : ∀ j : Fin 4, X (35 - j) = (crypt tbl P rk .encrypt var)[j] := fun j =>
    (crypt_get (dir := .encrypt) hseed (hvar ▸ hX) j).symm
  apply Vector.ext
  intro j hj
  calc (crypt tbl (crypt tbl P rk .encrypt var) rk .decrypt var')[j]
    _ = X (35 - (35 - j)) :=
      crypt_get (dir := .decrypt) (X := fun n => X (35 - n)) hcipher (hvar' ▸ hX.reverse) ⟨j, hj⟩
    _ = X j := by rw [show 35 - (35 - j) = j by omega]
    _ = P[j] := hseed ⟨j, hj⟩

end Sys2Proof.Machine

/-! PROOFS. The statement about 43_table_transform R186, from the laws of the table transform above. -/

namespace Sys2Proof.Machine

/-- Settles O33: each entry is the L-image of one lane of τ(v), and L is linear (`ttab_buildTables`). -/
theorem tableTransformEqualsT : Obligations.TableTransformEqualsT := ttab_buildTables

end Sys2Proof.Machine

/-! PROOFS. The errors of a command: the statements about 60_exceptions R200, R203 and R204. -/

namespace Sys2Proof.Machine

/-- Settles O35: a word's command succeeds, and then leaves OK, or writes the code of an error and nothing else
(`issue_cases`); the host port it leaves alone in both cases. -/
theorem failedCommandChangesOnlyErr : Obligations.FailedCommandChangesOnlyErr := by
  intro w s
  obtain ⟨c, hissue, hc⟩ := issue_cases w s
  refine ⟨_, hissue, fun hfail => ?_, rfl, rfl, rfl⟩
  rcases hc with hsucceeds | ⟨e, rfl⟩
  · exact absurd hsucceeds.err hfail
  · rfl

/-- A word decodes to no command exactly when the decoder reports why. -/
theorem decode_toOption_eq_none_iff (w : Word) : (decode w).toOption = none ↔ ∃ e, decode w = .error e := by
  cases decode w <;> simp [Except.toOption]

/-- A command other than TINIT whose declared length of key or block is not 4, or, for ENC and DEC, whose declared length of
the schedule is not 32, writes INVALID_LENGTH and nothing else. -/
theorem issue_invalidLength {w : Word} (hlegal : ¬ ∃ e, decode w = .error e) (hop : opField w ≠ 4)
    (hlen : laField w ≠ 4 ∨ (opField w ≠ 1 ∧ lbField w ≠ 32)) (s : State) :
    issue w s = .next { s with core := { s.core with err := 0x1 } } := by
  obtain ⟨hillegal, -, hinvalid⟩ := illegalWordsChangeOnlyErr w
  exact hinvalid (mt hillegal.mpr hlegal) hop hlen s

/-- Settles O36: each branch of the priority order meets the lemma on issuing a word that fails so; past all three tests the
command is KEYGEN, ENC, DEC or TINIT with nothing to report. -/
theorem firstErrorInPriorityOrderIsReported : Obligations.FirstErrorInPriorityOrderIsReported := by
  intro w s
  split
  case isTrue hnone => exact ⟨_, issue_illegal ((decode_toOption_eq_none_iff w).mp hnone) s, rfl⟩
  case isFalse hsome =>
  have hlegal : ¬ ∃ e, decode w = .error e := mt (decode_toOption_eq_none_iff w).mpr hsome
  obtain ⟨hr, hrow⟩ : reservedBitSet w = false ∧ _ := by
    rwa [exists_decode_error_iff_not_ok, not_not, exists_decode_ok_iff_fields] at hlegal
  split
  case isTrue hlen => exact ⟨_, issue_invalidLength hlegal hlen.1 hlen.2 s, rfl⟩
  case isFalse hlen =>
  have hcrypt (ho : opField w = 2 ∨ opField w = 3) : laField w = 4 ∧ lbField w = 32 := by
    have hrows : opField w ≠ 4 ∧ opField w ≠ 1 := by rcases ho with ho | ho <;> simp [ho]
    tauto
  split
  case isTrue hinit =>
    obtain ⟨ho, hv, htv⟩ := hinit
    exact ⟨_, issue_crypt_notInitialized hr ho (hcrypt ho).1 (hcrypt ho).2 hv htv, rfl⟩
  case isFalse hinit =>
  rcases hrow with ⟨ho, hv, hlb⟩ | ho | ⟨ho, hv, hla, hlb⟩
  · have hla : laField w = 4 := not_not.mp fun hne => hlen ⟨by simp [ho], .inl hne⟩
    exact ⟨_, issue_keygen_legal hr ho hv hlb hla s, rfl⟩
  · exact ⟨_, issue_crypt_runs hr ho (hcrypt ho).1 (hcrypt ho).2 fun h => hinit ⟨ho, h⟩, rfl⟩
  · exact ⟨_, issue_tinit hr ho hv hla hlb s, rfl⟩

end Sys2Proof.Machine

/-! PROOFS. What an action does to the core, as an equation between states: laws that the proofs below share. -/

namespace Sys2Proof.Machine

/-- A change of the core, from its result on this core. -/
theorem State.onCore_eq {f : CoreState → CoreState} {s : State} {c : CoreState} (h : f s.core = c) :
    s.onCore f = { s with core := c } := by
  rw [State.onCore, h]

/-- A command, from its result on this core. -/
theorem exec_of_commandOnCore {i : Instr} {s : State} {c : CoreState} (h : commandOnCore i s.core = c) :
    exec i s = .next { s with core := c } := by
  rw [exec_eq, State.onCore_eq h]

/-- A step whose next host action is a reset. -/
theorem step_reset {s : State} {rest : List HostAction} (hpending : s.pending = .reset :: rest) :
    step s = .next (resetMachine (s.takeAction rest)) :=
  step_perform hpending

/-- A step whose next host action writes the word of TINIT to CMD. -/
theorem step_tinit {s : State} {rest : List HostAction} (hpending : s.pending = .write 4 0x020 0x00000004 :: rest) :
    step s = .next { s.takeAction rest with core := { s.core with tbl := buildTables, tv := true, err := 0x0 } } :=
  (step_write .cmd hpending).trans (issue_of_succeeds (s := s.takeAction rest) (.tinit s.core))

end Sys2Proof.Machine

/-! PROOFS. Decoder and encoder are inverse, and the rows of the command table: the statements about 30_encoding R87 on
single command words. -/

namespace Sys2Proof.Machine

/-! ### Decoding an encoded command -/

/-- The fields of a well-formed command's word are those of its row. -/
theorem matchBits (i : Instr) : Laws.MatchBits.Statement i := by
  cases i with
  | keygen la => exact Laws.MatchBits.keygen la
  | encD la lb => exact Laws.MatchBits.encD la lb
  | encT la lb => exact Laws.MatchBits.encT la lb
  | decD la lb => exact Laws.MatchBits.decD la lb
  | decT la lb => exact Laws.MatchBits.decT la lb
  | tinit => exact Laws.MatchBits.tinit

/-- A field whose value is 0 is 0. -/
theorem field_eq_zero {n : Nat} {x : BitVec n} (h : x.toNat = 0) : x = 0 := by
  rw [field_eq h]
  rfl

/-- Settles O13: the encoded word has the fields of the command's row, and the decoder reads the command off them. -/
theorem decodeOfEncodeIsTheCommand : Obligations.DecodeOfEncodeIsTheCommand := by
  intro i hi
  obtain ⟨hop, hv, hla, hlb, hr⟩ := matchBits i hi
  refine (decode_ok_iff _ i).mpr ⟨hr, ?_⟩
  rw [hla, hlb]
  cases i with
  | keygen la => exact .inl ⟨hop, hv, field_eq_zero hlb, rfl⟩
  | encD la lb => exact .inr (.inl ⟨hop, hv, rfl⟩)
  | encT la lb => exact .inr (.inr (.inl ⟨hop, hv, rfl⟩))
  | decD la lb => exact .inr (.inr (.inr (.inl ⟨hop, hv, rfl⟩)))
  | decT la lb => exact .inr (.inr (.inr (.inr (.inl ⟨hop, hv, rfl⟩))))
  | tinit => exact .inr (.inr (.inr (.inr (.inr ⟨hop, hv, field_eq_zero hla, field_eq_zero hlb, rfl⟩))))

/-! ### Encoding a decoded word -/

/-- A word with no reserved bit set is its four other fields, packed. -/
theorem eq_packCommand {w : Word} (hr : reservedBitSet w = false) :
    packCommand (lbField w) (laField w) (vField w) (opField w) = w := by
  obtain ⟨h0, h1, h2⟩ := (reservedBitSet_eq_false w).mp hr
  apply word_ext_fields <;> simp [h0, h1, h2]

/-- The value of a 6-bit field fits its field. -/
theorem lengthFits_toNat (x : BitVec 6) : lengthFits x.toNat = true := decide_eq_true x.isLt

/-- Settles O14: in each row the lengths are the word's own fields, and packing a word's fields gives the word. -/
theorem encodeOfDecodeIsTheWord : Obligations.EncodeOfDecodeIsTheWord := by
  intro w i hdecode
  obtain ⟨hr, hrow⟩ := (decode_ok_iff w i).mp hdecode
  have hword := eq_packCommand hr
  rcases hrow with ⟨hop, hv, hlb, rfl⟩ | ⟨hop, hv, rfl⟩ | ⟨hop, hv, rfl⟩ | ⟨hop, hv, rfl⟩ | ⟨hop, hv, rfl⟩ |
    ⟨hop, hv, hla, hlb, rfl⟩
  case inl => simpa [Instr.wellFormed, lengthFits_toNat, encode, hop, hv, hlb] using hword
  case inr.inr.inr.inr.inr => simpa [Instr.wellFormed, encode, hop, hv, hla, hlb] using hword
  all_goals simpa [Instr.wellFormed, lengthFits_toNat, encode, hop, hv] using hword

/-! ### The rows of the table (R87) -/

/-- The command of the row of `i` that has the word's own lengths. -/
def commandOfRow (w : Word) : Instr → Instr
  | .keygen _ => .keygen (laField w).toNat
  | .encD _ _ => .encD (laField w).toNat (lbField w).toNat
  | .encT _ _ => .encT (laField w).toNat (lbField w).toNat
  | .decD _ _ => .decD (laField w).toNat (lbField w).toNat
  | .decT _ _ => .decT (laField w).toNat (lbField w).toNat
  | .tinit => .tinit

/-- Lengths are no part of a row. -/
theorem row_commandOfRow (w : Word) (i : Instr) : (commandOfRow w i).row = i.row := by
  cases i <;> rfl

/-- A word matches a row exactly when it decodes to the row's command with the word's own lengths. -/
theorem matchedBy_row_iff (w : Word) (i : Instr) : i.row.matchedBy w ↔ decode w = .ok (commandOfRow w i) := by
  cases i with
  | keygen => exact (decode_keygen_iff_matches w).symm
  | encD => exact (decode_encD_iff_matches w).symm
  | encT => exact (decode_encT_iff_matches w).symm
  | decD => exact (decode_decD_iff_matches w).symm
  | decT => exact (decode_decT_iff_matches w).symm
  | tinit => exact (decode_tinit_iff_matches w).symm

/-- A word decodes to no command but with its own lengths. -/
theorem commandOfRow_of_decode {w : Word} {i : Instr} (h : decode w = .ok i) : commandOfRow w i = i := by
  obtain ⟨-, hrow⟩ := (decode_ok_iff w i).mp h
  rcases hrow with ⟨-, -, -, rfl⟩ | ⟨-, -, rfl⟩ | ⟨-, -, rfl⟩ | ⟨-, -, rfl⟩ | ⟨-, -, rfl⟩ | ⟨-, -, -, -, rfl⟩ <;> rfl

/-- A word matches the row of what it decodes to. -/
theorem row_matchedBy_of_decode {w : Word} {i : Instr} (h : decode w = .ok i) : i.row.matchedBy w := by
  rw [matchedBy_row_iff, commandOfRow_of_decode h, h]

/-- Settles O12: the decoder answers one command, so two matched rows are the row of that command. -/
theorem noTwoRowsMatchOneWord : Obligations.NoTwoRowsMatchOneWord := by
  intro w i
  refine ⟨fun j hi hj => ?unique, ?decodes⟩
  case unique =>
    rw [matchedBy_row_iff] at hi hj
    have hsame : commandOfRow w i = commandOfRow w j := Except.ok.inj (hi.symm.trans hj)
    rw [← row_commandOfRow w i, hsame, row_commandOfRow]
  case decodes =>
    constructor
    · intro hi
      exact ⟨_, (matchedBy_row_iff w i).mp hi, row_commandOfRow w i⟩
    · rintro ⟨k, hk, hrow⟩
      exact hrow ▸ row_matchedBy_of_decode hk

/-- Settles O10: the canonical words are part of the table's statement (`decoderFollowsTheMatchAndMaskTable`). -/
theorem canonicalWordsDecode : Obligations.CanonicalWordsDecode := by
  obtain ⟨-, hkeygen, hencD, hencT, hdecD, hdecT, htinit, -⟩ := decoderFollowsTheMatchAndMaskTable
  exact ⟨hkeygen, hencD, hencT, hdecD, hdecT, htinit⟩

end Sys2Proof.Machine

/-! PROOFS. The unbuilt tables are unobservable: the statement about 43_table_transform R188. -/

namespace Sys2Proof.Machine

/-! ### Changing the table contents alone -/

/-- Two states agree but for unbuilt tables exactly when one is the other with new table contents, new only while TV = 0. -/
theorem sameButUnbuiltTables_iff (s s' : State) :
    SameButUnbuiltTables s s' ↔
      ∃ T, s' = s.onCore (CoreState.setTbl T) ∧ (s.core.tv = true → T = s.core.tbl) := by
  constructor
  · rintro ⟨hkey, hblk, hrk, htv, herr, hpending, hreply, hdrawn, htbl⟩
    obtain ⟨⟨key, blk, rk, tbl, tv, err⟩, pending, reply, drawn⟩ := s'
    dsimp only at *
    subst hkey hblk hrk htv herr hpending hreply hdrawn
    exact ⟨tbl, rfl, htbl⟩
  · rintro ⟨T, rfl, hT⟩
    exact ⟨rfl, rfl, rfl, rfl, rfl, rfl, rfl, rfl, hT⟩

/-- A state agrees with itself. -/
theorem SameButUnbuiltTables.refl (s : State) : SameButUnbuiltTables s s :=
  ⟨rfl, rfl, rfl, rfl, rfl, rfl, rfl, rfl, fun _ => rfl⟩

/-- While TV = 0 any table contents will do. -/
theorem sameButUnbuiltTables_setTbl {s s' : State} {T : Vector (Vector Word 256) 4} (htv : s.core.tv = false)
    (h : s' = s.onCore (CoreState.setTbl T)) : SameButUnbuiltTables s s' :=
  (sameButUnbuiltTables_iff s s').mpr ⟨T, h, by simp [htv]⟩

/-! ### No action reads them while TV = 0 -/

/-- A register read gives no table entry. -/
@[simp] theorem readReg_setTbl (r : Reg) (T : Vector (Vector Word 256) 4) (c : CoreState) :
    readReg r (c.setTbl T) = readReg r c := by
  cases r <;> rfl

/-- KEYGEN neither reads nor writes the tables. -/
theorem keygenCommand_setTbl (la : Nat) (T : Vector (Vector Word 256) 4) (c : CoreState) :
    keygenCommand la (c.setTbl T) = (keygenCommand la c).setTbl T := by
  by_cases hla : la = 4
  · subst hla
    rfl
  · rw [keygenCommand_illegal hla, keygenCommand_illegal hla]
    rfl

/-- ENC and DEC read the tables in the table variant only, and that fails while TV = 0. -/
theorem cryptCommand_setTbl (dir : Direction) (var : Variant) (la lb : Nat) (T : Vector (Vector Word 256) 4)
    {c : CoreState} (htv : c.tv = false) :
    cryptCommand dir var la lb (c.setTbl T) = (cryptCommand dir var la lb c).setTbl T := by
  by_cases hlen : la ≠ 4 ∨ lb ≠ 32
  · rw [cryptCommand_illegal hlen, cryptCommand_illegal hlen]
    rfl
  · obtain ⟨rfl, rfl⟩ : la = 4 ∧ lb = 32 := by omega
    cases var with
    | direct =>
      rw [cryptCommand_runs dir .direct _ nofun, cryptCommand_runs dir .direct _ nofun]
      rfl
    | table =>
      rw [cryptCommand_notInitialized dir _ htv, cryptCommand_notInitialized dir (c.setTbl T) htv]
      rfl

/-- KEYGEN keeps TV. -/
theorem keygenCommand_tv (la : Nat) (c : CoreState) : (keygenCommand la c).tv = c.tv := by
  unfold keygenCommand
  split <;> rfl

/-- ENC and DEC keep TV. -/
theorem cryptCommand_tv (dir : Direction) (var : Variant) (la lb : Nat) (c : CoreState) :
    (cryptCommand dir var la lb c).tv = c.tv := by
  unfold cryptCommand
  split_ifs <;> rfl

/-- While TV = 0 no command word reads the tables. TINIT writes them whole; the other words leave them, and TV. -/
theorem wordOnCore_setTbl (w : Word) (T : Vector (Vector Word 256) 4) {c : CoreState} (htv : c.tv = false) :
    wordOnCore w (c.setTbl T) = wordOnCore w c ∨
      (wordOnCore w (c.setTbl T) = (wordOnCore w c).setTbl T ∧ (wordOnCore w c).tv = false) := by
  unfold wordOnCore
  cases decode w with
  | error e => exact .inr ⟨rfl, htv⟩
  | ok i =>
    cases i with
    | keygen la => exact .inr ⟨keygenCommand_setTbl la T c, (keygenCommand_tv la c).trans htv⟩
    | encD la lb => exact .inr ⟨cryptCommand_setTbl _ _ la lb T htv, (cryptCommand_tv _ _ la lb c).trans htv⟩
    | encT la lb => exact .inr ⟨cryptCommand_setTbl _ _ la lb T htv, (cryptCommand_tv _ _ la lb c).trans htv⟩
    | decD la lb => exact .inr ⟨cryptCommand_setTbl _ _ la lb T htv, (cryptCommand_tv _ _ la lb c).trans htv⟩
    | decT la lb => exact .inr ⟨cryptCommand_setTbl _ _ la lb T htv, (cryptCommand_tv _ _ la lb c).trans htv⟩
    | tinit => exact .inl rfl

/-! ### Every step (R188) -/

/-- A command issued while TV = 0 leaves states that agree again. -/
theorem step_command_setTbl {s t : State} {w : Word} {rest : List HostAction} (htv : s.core.tv = false)
    (T : Vector (Vector Word 256) 4) (hpending : s.pending = .write 4 0x020 w :: rest) (hstep : step s = .next t) :
    ∃ t', step (s.onCore (CoreState.setTbl T)) = .next t' ∧ SameButUnbuiltTables t t' := by
  obtain rfl : (s.takeAction rest).onCore (wordOnCore w) = t := by
    rw [step_command hpending] at hstep
    exact Host.Outcome.next.inj hstep
  refine ⟨_, step_command (s := s.onCore _) hpending, ?_⟩
  rcases wordOnCore_setTbl w T htv with hbuilt | ⟨hkept, htv'⟩
  · have hsame : ((s.onCore (CoreState.setTbl T)).takeAction rest).onCore (wordOnCore w) =
        (s.takeAction rest).onCore (wordOnCore w) := State.onCore_eq hbuilt
    rw [hsame]
    exact .refl _
  · exact sameButUnbuiltTables_setTbl htv' (State.onCore_eq hkept)

/-- A step from a state with TV = 0 is a step, with the same reply, from that state with any other tables. -/
theorem step_setTbl {s t : State} (htv : s.core.tv = false) (T : Vector (Vector Word 256) 4) (hstep : step s = .next t) :
    ∃ t', step (s.onCore (CoreState.setTbl T)) = .next t' ∧ SameButUnbuiltTables t t' := by
  cases step_cases hstep with
  | idle hpending => exact ⟨_, step_idle (s := s.onCore _) hpending, sameButUnbuiltTables_setTbl htv rfl⟩
  | read r rest hpending =>
    refine ⟨_, step_read (s := s.onCore _) r hpending, sameButUnbuiltTables_setTbl (T := T) htv ?_⟩
    rw [State.onCore_core, readReg_setTbl]
    rfl
  | writeKey i v rest hpending =>
    exact ⟨_, step_write (s := s.onCore _) (.key i) hpending, sameButUnbuiltTables_setTbl (T := T) htv rfl⟩
  | writeBlk i v rest hpending =>
    exact ⟨_, step_write (s := s.onCore _) (.blk i) hpending, sameButUnbuiltTables_setTbl (T := T) htv rfl⟩
  | ignored r v rest hr hpending =>
    refine ⟨(s.onCore (CoreState.setTbl T)).takeAction rest, (step_write (s := s.onCore _) r hpending).trans ?_,
      sameButUnbuiltTables_setTbl (T := T) htv rfl⟩
    rcases hr with rfl | ⟨i, rfl⟩ <;> rfl
  | succeeds w c rest hpending => exact step_command_setTbl htv T hpending hstep
  | fails w e rest hpending => exact step_command_setTbl htv T hpending hstep
  | reset rest hpending => exact ⟨_, step_reset (s := s.onCore _) hpending, .refl _⟩

/-- Settles O34: once TV = 1 the two states are one; while TV = 0 no step reads the tables. -/
theorem unbuiltTablesAreUnobservable : Obligations.UnbuiltTablesAreUnobservable := by
  intro s s' t hsame hstep
  obtain ⟨T, rfl, hT⟩ := (sameButUnbuiltTables_iff s s').mp hsame
  cases htv : s.core.tv with
  | true =>
    obtain rfl := hT htv
    exact ⟨t, hstep, .refl t⟩
  | false => exact step_setTbl htv T hstep

end Sys2Proof.Machine

/-! PROOFS. The invariant: it holds at reset, every step keeps it, and STATUS shows it (10_state R26 and R28, 60_exceptions
R200). -/

namespace Sys2Proof.Machine

/-- Every error has a defined code (60 R200). -/
theorem CommandError.code_le (e : CommandError) : e.code.toNat ≤ 3 := by
  cases e <;> decide

/-- The invariant, of the core alone. -/
def CoreInv (c : CoreState) : Prop := TablesValid c ∧ ErrLegal c

/-- The machine's invariant speaks of its core alone. -/
theorem machineInv_iff (s : State) : MachineInv s ↔ CoreInv s.core := Iff.rfl

/-- After a reset TV = 0 and ERR = OK. -/
theorem coreInv_afterReset (n : Nat) : CoreInv (CoreState.afterReset n) :=
  ⟨fun htv => Bool.noConfusion htv, by simp [ErrLegal]⟩

/-- A command that succeeds leaves OK, and either keeps the tables and TV or is TINIT. -/
theorem Succeeds.coreInv {w : Word} {c d : CoreState} (h : Succeeds w c d) (hvalid : TablesValid c) : CoreInv d := by
  refine ⟨?tables, by simp [ErrLegal, h.err]⟩
  cases h with
  | keygen => exact hvalid
  | encD => exact hvalid
  | encT => exact hvalid
  | decD => exact hvalid
  | decT => exact hvalid
  | tinit => exact fun _ => rfl

/-- Settles O55: the core of `State.reset` is a reset core. -/
theorem invariantHoldsAtReset : Obligations.InvariantHoldsAtReset := (machineInv_iff _).mpr (coreInv_afterReset 0)

/-- Settles O56: only a command or a reset writes TV, TBL or ERR. -/
theorem everyStepKeepsTheInvariant : Obligations.EveryStepKeepsTheInvariant := by
  intro s t hinv hstep
  rw [machineInv_iff] at hinv ⊢
  cases step_cases hstep with
  | idle => exact hinv
  | read => exact hinv
  | writeKey => exact hinv
  | writeBlk => exact hinv
  | ignored => exact hinv
  | succeeds w c rest hpending hc => exact hc.coreInv hinv.1
  | fails w e => exact ⟨hinv.1, e.code_le⟩
  | reset => exact coreInv_afterReset s.drawn

/-- A defined code of ERR has no bit above bit 1. -/
theorem getLsbD_err_of_errLegal {c : CoreState} (h : ErrLegal c) {i : Nat} (hi : 2 ≤ i) : c.err.getLsbD i = false := by
  have hcode : c.err.toNat < 2 ^ i := calc
    c.err.toNat < 2 ^ 2 := Nat.lt_succ_of_le h
    _ ≤ 2 ^ i := Nat.pow_le_pow_right (by decide) hi
  exact Nat.testBit_lt_two_pow hcode

/-- Settles O45: STATUS shows TV in bit 8 and ERR below, whose code has two bits. -/
theorem statusReadsOnlyDefinedBits : Obligations.StatusReadsOnlyDefinedBits := by
  rintro s ⟨-, herr⟩
  apply BitVec.eq_of_getLsbD_eq
  intro i hi
  change _ = (0#32).getLsbD i
  rw [readReg, BitVec.getLsbD_and, getLsbD_statusWord _ i hi, BitVec.getLsbD_zero]
  by_cases hdefined : i = 0 ∨ i = 1 ∨ i = 8
  · have hmask : (~~~ 0x00000103 : Word).getLsbD i = false := by
      rcases hdefined with rfl | rfl | rfl <;> rfl
    rw [hmask, Bool.and_false]
  · rw [if_neg (by omega), getLsbD_err_of_errLegal herr (by omega), Bool.false_and]

end Sys2Proof.Machine

/-! PROOFS. How a step ends: the statements about 60_exceptions R215, 20_memory R54, R57 and R58, and 93 U5. -/

namespace Sys2Proof.Machine

/-! ### One access -/

/-- A host write to a register answers a next state and leaves the host's program alone. -/
theorem writeReg_next (r : Reg) (v : Word) (s : State) : ∃ t, writeReg r v s = .next t ∧ t.pending = s.pending := by
  cases r with
  | key i => exact ⟨_, rfl, rfl⟩
  | blk i => exact ⟨_, rfl, rfl⟩
  | cmd => exact ⟨_, issue_eq v s, rfl⟩
  | status => exact ⟨_, rfl, rfl⟩
  | rk i => exact ⟨_, rfl, rfl⟩

/-- The host action is an access of `n` bytes at `off`, in either direction. -/
def HostAction.accesses (a : HostAction) (n off : Nat) : Prop := a = .read n off ∨ ∃ v, a = .write n off v

/-- An access that reaches a register answers a next state and leaves the host's program alone. -/
theorem perform_reg {a : HostAction} {n off : Nat} {r : Reg} (ha : a.accesses n off) (h : access n off = .reg r)
    (s : State) : ∃ t, perform a s = .next t ∧ t.pending = s.pending := by
  obtain ⟨rfl, rfl⟩ := access_reg h
  rcases ha with rfl | ⟨v, rfl⟩
  · exact ⟨_, perform_read r s, rfl⟩
  · exact perform_write r v s ▸ writeReg_next r v s

/-- A bad access inside the window is HostBusError at its offset (20 R58). -/
theorem perform_busError {a : HostAction} {n off : Nat} (ha : a.accesses n off) (h : access n off = .busError)
    (s : State) : perform a s = .fault (.hostBusError off) := by
  rcases ha with rfl | ⟨v, rfl⟩
  · simp [perform, memRead, h]
  · simp [perform, memWrite, h]

/-- An access outside the window is refused (93 U5). -/
theorem perform_outside {a : HostAction} {n off : Nat} (ha : a.accesses n off) (h : access n off = .outside)
    (s : State) : perform a s = .refused (.outsideWindow off) := by
  rcases ha with rfl | ⟨v, rfl⟩
  · simp [perform, memRead, h]
  · simp [perform, memWrite, h]

/-- A host action the core answers is performed and leaves the rest of the host's program alone. -/
theorem perform_answered {a : HostAction} (ha : a.answered) (s : State) :
    ∃ t, perform a s = .next t ∧ t.pending = s.pending := by
  cases a with
  | read n off => obtain ⟨r, hr⟩ := ha; exact perform_reg (.inl rfl) hr s
  | write n off v => obtain ⟨r, hr⟩ := ha; exact perform_reg (.inr ⟨v, rfl⟩) hr s
  | reset => exact ⟨_, rfl, rfl⟩

/-! ### Programs of answered accesses (60 R215) -/

/-- Settles O57: with an action pending the step performs it; with none the core stays as it is. -/
theorem answeredActionsStepToTheRest : Obligations.AnsweredActionsStepToTheRest := by
  intro s hsafe
  cases hpending : s.pending with
  | nil => exact ⟨s, step_idle hpending, hpending, hsafe⟩
  | cons a rest =>
    rw [hpending] at hsafe
    obtain ⟨ha, hrest⟩ := List.forall_mem_cons.mp hsafe
    obtain ⟨t, hperform, ht⟩ := perform_answered ha (s.takeAction rest)
    have ht : t.pending = rest := ht
    exact ⟨t, (step_perform hpending).trans hperform, ht, ht ▸ hrest⟩

/-- Settles O39: by induction on the number of steps, each of them `answeredActionsStepToTheRest`. -/
theorem answeredProgramsRunToTheirEnd : Obligations.AnsweredProgramsRunToTheirEnd := by
  intro s k
  induction k generalizing s with
  | zero => exact fun _ => ⟨s, run_zero s, rfl⟩
  | succ k ih =>
    intro hsafe
    obtain ⟨t, hstep, htail, ht⟩ := answeredActionsStepToTheRest s hsafe
    obtain ⟨u, hrun, hdrop⟩ := ih t ht
    refine ⟨u, (run_succ k hstep).trans hrun, ?_⟩
    rw [hdrop, htail, List.drop_tail]

/-! ### How any step ends -/

/-- The three ends of a step whose next host action is an access. -/
theorem step_access {s : State} {a : HostAction} {rest : List HostAction} {n off : Nat} (ha : a.accesses n off)
    (hpending : s.pending = a :: rest) :
    (∃ t, step s = .next t) ∨ (step s = .fault (.hostBusError off) ∧ off < 0x100) ∨
      (step s = .refused (.outsideWindow off) ∧ 0x100 ≤ off) := by
  rw [step_perform hpending]
  cases haccess : access n off with
  | reg r =>
    obtain ⟨t, ht, -⟩ := perform_reg ha haccess (s.takeAction rest)
    exact .inl ⟨t, ht⟩
  | busError =>
    have hinside : off < 0x100 := Nat.lt_of_not_le fun h => by simp [access_outside.mpr h] at haccess
    exact .inr (.inl ⟨perform_busError ha haccess _, hinside⟩)
  | outside => exact .inr (.inr ⟨perform_outside ha haccess _, access_outside.mp haccess⟩)

/-- Settles O38: an idle core and a reset answer a next state; an access ends in one of three ways. -/
theorem stepOutcomes : Obligations.StepOutcomes := by
  intro s
  cases hpending : s.pending with
  | nil => exact .inl ⟨s, step_idle hpending⟩
  | cons a rest =>
    cases a with
    | read n off =>
      exact (step_access (.inl rfl) hpending).imp_right <|
        Or.imp (fun ⟨hfault, hoff⟩ => ⟨off, hfault, hoff, .inl ⟨n, rest, rfl⟩⟩)
          (fun ⟨hrefused, hoff⟩ => ⟨off, hrefused, hoff, .inl ⟨n, rest, rfl⟩⟩)
    | write n off v =>
      exact (step_access (.inr ⟨v, rfl⟩) hpending).imp_right <|
        Or.imp (fun ⟨hfault, hoff⟩ => ⟨off, hfault, hoff, .inr ⟨n, v, rest, rfl⟩⟩)
          (fun ⟨hrefused, hoff⟩ => ⟨off, hrefused, hoff, .inr ⟨n, v, rest, rfl⟩⟩)
    | reset => exact .inl ⟨_, step_perform hpending⟩

/-! ### Which accesses are bus errors -/

/-- The bad accesses inside the window. -/
theorem access_busError_iff (n off : Nat) :
    access n off = .busError ↔ off < 0x100 ∧ (n ≠ 4 ∨ off % 4 ≠ 0 ∨ (0x028 ≤ off ∧ off ≤ 0x07F)) := by
  by_cases hinside : off < 0x100
  · rw [access_busError hinside]
    exact (and_iff_right hinside).symm
  · simp [access_outside.mpr (Nat.not_lt.mp hinside), hinside]

/-- A step whose next host action is an access is a bus error exactly when the access is bad. -/
theorem step_busError_iff {s : State} {a : HostAction} {rest : List HostAction} {n off : Nat} (ha : a.accesses n off)
    (hpending : s.pending = a :: rest) : step s = .fault (.hostBusError off) ↔ access n off = .busError := by
  rw [step_perform hpending]
  cases haccess : access n off with
  | reg r =>
    obtain ⟨t, ht, -⟩ := perform_reg ha haccess (s.takeAction rest)
    simp [ht]
  | busError => simp [perform_busError ha haccess]
  | outside => simp [perform_outside ha haccess]

/-- Settles O42: a read and a write alike are bus errors exactly when the access they make is bad. -/
theorem busErrorExactlyOnBadAccesses : Obligations.BusErrorExactlyOnBadAccesses := by
  intro s rest n off v bad
  have hbad : access n off = .busError ↔ bad := access_busError_iff n off
  exact ⟨fun hread => (step_busError_iff (.inl rfl) hread).trans hbad,
    fun hwrite => (step_busError_iff (.inr ⟨v, rfl⟩) hwrite).trans hbad⟩

/-- Settles O43: at an offset of 0x100 or more no access reaches the window (`perform_outside`). -/
theorem accessOutsideTheWindowIsRefused : Obligations.AccessOutsideTheWindowIsRefused := by
  intro s rest n off v hoff
  have houtside : access n off = .outside := access_outside.mpr hoff
  exact ⟨fun hread => (step_perform hread).trans (perform_outside (.inl rfl) houtside _),
    fun hwrite => (step_perform hwrite).trans (perform_outside (.inr ⟨v, rfl⟩) houtside _)⟩

end Sys2Proof.Machine

/-! PROOFS. What changes KEY, BLK, the tables and ERR: the statements about 10_state R21, R22, R27, R28 and R33, and about
20_memory R68. -/

namespace Sys2Proof.Machine

/-! ### A read after a write (20 R68) -/

/-- After a write to KEY[i] every other register reads as before. -/
theorem readReg_setKeyWord (i : Fin 4) (v : Word) (q : Reg) (c : CoreState) :
    readReg q (c.setKeyWord i v) = if q = .key i then v else readReg q c := by
  cases q with
  | key j => simpa [readReg] using getElem_set_word c.key i j v
  | blk j => simp [readReg]
  | cmd => rfl
  | status => rfl
  | rk j => simp [readReg]

/-- After a write to BLK[i] every other register reads as before. -/
theorem readReg_setBlkWord (i : Fin 4) (v : Word) (q : Reg) (c : CoreState) :
    readReg q (c.setBlkWord i v) = if q = .blk i then v else readReg q c := by
  cases q with
  | key j => simp [readReg]
  | blk j => simpa [readReg] using getElem_set_word c.blk i j v
  | cmd => rfl
  | status => rfl
  | rk j => simp [readReg]

/-- A write of a register and then a read of one. -/
theorem run_write_read {s t : State} {r q : Reg} {v : Word} {rest : List HostAction}
    (hpending : s.pending = .write 4 r.offset v :: .read 4 q.offset :: rest)
    (hwrite : writeReg r v (s.takeAction (.read 4 q.offset :: rest)) = .next t)
    (ht : t.pending = .read 4 q.offset :: rest) :
    Host.Core.run Sys2Proof.core 2 s = .next { t with pending := rest, reply := some (readReg q t.core) } := by
  rw [run_succ 1 ((step_write r hpending).trans hwrite), run_succ 0 (step_read q ht), run_zero]

/-- Settles O46: the read answers from the core the write leaves, in which one word alone is new. -/
theorem readAfterWrite : Obligations.ReadAfterWrite := by
  rintro s rest r q v ⟨i, rfl | rfl⟩ - - hpending
  · exact ⟨_, run_write_read hpending rfl rfl, rfl, congrArg some (readReg_setKeyWord i v q s.core)⟩
  · exact ⟨_, run_write_read hpending rfl rfl, rfl, congrArg some (readReg_setBlkWord i v q s.core)⟩

/-! ### KEY and BLK (10 R21, R22) -/

/-- A word that a write to one word of a vector changes is the one written. -/
theorem eq_of_getElem_set_word_ne {n : Nat} {x : Vector Word n} {i j : Fin n} {v : Word} (h : (x.set i v)[j] ≠ x[j]) :
    j = i := by
  rw [getElem_set_word] at h
  exact of_not_not fun hne => h (if_neg hne)

/-- No command that succeeds writes KEY. -/
theorem Succeeds.key {w : Word} {c d : CoreState} (h : Succeeds w c d) : d.key = c.key := by
  cases h <;> rfl

/-- Of the commands that succeed, ENC and DEC alone write BLK. -/
theorem Succeeds.blk_eq_or_crypt {w : Word} {c d : CoreState} (h : Succeeds w c d) :
    d.blk = c.blk ∨ w = 0x00200402 ∨ w = 0x00200412 ∨ w = 0x00200403 ∨ w = 0x00200413 := by
  cases h with
  | keygen => exact .inl rfl
  | encD => exact .inr (.inl rfl)
  | encT => exact .inr (.inr (.inl rfl))
  | decD => exact .inr (.inr (.inr (.inl rfl)))
  | decT => exact .inr (.inr (.inr (.inr rfl)))
  | tinit => exact .inl rfl

/-- A step that changes KEY[i] is a reset or a write to it. -/
theorem key_change {s t : State} (hstep : step s = .next t) {i : Fin 4} (h : t.core.key[i] ≠ s.core.key[i]) :
    Resets s ∨ Writes s (.key i) t.core.key[i] := by
  cases step_cases hstep with
  | idle => exact absurd rfl h
  | read => exact absurd rfl h
  | writeKey j v rest hpending =>
    obtain rfl := eq_of_getElem_set_word_ne h
    exact .inr ⟨rest, by simpa using hpending⟩
  | writeBlk => exact absurd rfl h
  | ignored => exact absurd rfl h
  | succeeds w c rest hpending hc => exact absurd (congrArg (·[i]) hc.key) h
  | fails => exact absurd rfl h
  | reset rest hpending => exact .inl ⟨rest, hpending⟩

/-- A step that changes BLK[i] is a reset, a write to it, or a command word of ENC or DEC. -/
theorem blk_change {s t : State} (hstep : step s = .next t) {i : Fin 4} (h : t.core.blk[i] ≠ s.core.blk[i]) :
    Resets s ∨ Writes s (.blk i) t.core.blk[i] ∨
      Issues s 0x00200402 ∨ Issues s 0x00200412 ∨ Issues s 0x00200403 ∨ Issues s 0x00200413 := by
  cases step_cases hstep with
  | idle => exact absurd rfl h
  | read => exact absurd rfl h
  | writeKey => exact absurd rfl h
  | writeBlk j v rest hpending =>
    obtain rfl := eq_of_getElem_set_word_ne h
    exact .inr (.inl ⟨rest, by simpa using hpending⟩)
  | ignored => exact absurd rfl h
  | succeeds w c rest hpending hc =>
    have hword := hc.blk_eq_or_crypt.resolve_left fun hblk => h (congrArg (·[i]) hblk)
    have hissues : Issues s w := ⟨rest, hpending⟩
    rcases hword with rfl | rfl | rfl | rfl <;> tauto
  | fails => exact absurd rfl h
  | reset rest hpending => exact .inl ⟨rest, hpending⟩

/-- Settles O47: the two lemmas on a changed word. -/
theorem whatChangesKeyAndBlock : Obligations.WhatChangesKeyAndBlock :=
  fun _ _ hstep _ => ⟨key_change hstep, blk_change hstep⟩

/-! ### The tables and TV (10 R28, R33) -/

/-- Of the commands that succeed, TINIT alone writes the tables and TV. -/
theorem Succeeds.tables_eq_or_tinit {w : Word} {c d : CoreState} (h : Succeeds w c d) :
    (d.tbl = c.tbl ∧ d.tv = c.tv) ∨ (w = 0x00000004 ∧ d.tv = true) := by
  cases h with
  | keygen => exact .inl ⟨rfl, rfl⟩
  | encD => exact .inl ⟨rfl, rfl⟩
  | encT => exact .inl ⟨rfl, rfl⟩
  | decD => exact .inl ⟨rfl, rfl⟩
  | decT => exact .inl ⟨rfl, rfl⟩
  | tinit => exact .inr ⟨rfl, rfl⟩

/-- A step keeps the tables and TV, or is a reset, or a TINIT, which sets TV. -/
theorem tables_change {s t : State} (hstep : step s = .next t) :
    (t.core.tbl = s.core.tbl ∧ t.core.tv = s.core.tv) ∨ Resets s ∨ (Issues s 0x00000004 ∧ t.core.tv = true) := by
  cases step_cases hstep with
  | idle => exact .inl ⟨rfl, rfl⟩
  | read => exact .inl ⟨rfl, rfl⟩
  | writeKey => exact .inl ⟨rfl, rfl⟩
  | writeBlk => exact .inl ⟨rfl, rfl⟩
  | ignored => exact .inl ⟨rfl, rfl⟩
  | fails => exact .inl ⟨rfl, rfl⟩
  | reset rest hpending => exact .inr (.inl ⟨rest, hpending⟩)
  | succeeds w c rest hpending hc =>
    rcases hc.tables_eq_or_tinit with hkept | ⟨rfl, htv⟩
    · exact .inl hkept
    · exact .inr (.inr ⟨⟨rest, hpending⟩, htv⟩)

/-- Settles O49: the changes by `tables_change`, a reset and a TINIT by what each leaves. -/
theorem whatChangesTheTables : Obligations.WhatChangesTheTables := by
  intro s t hstep
  have hchange := tables_change hstep
  refine ⟨fun htbl => ?tbl, fun htv => ?tv, ?reset, ?tinit, fun htv hnoReset => ?stays⟩
  case tbl => exact (hchange.resolve_left fun h => htbl h.1).imp_right And.left
  case tv => exact (hchange.resolve_left fun h => htv h.2).imp_right And.left
  case reset =>
    rintro ⟨rest, hpending⟩
    cases (step_reset hpending).symm.trans hstep
    rfl
  case tinit =>
    rintro ⟨rest, hpending⟩
    cases (step_tinit hpending).symm.trans hstep
    exact ⟨rfl, rfl⟩
  case stays =>
    rcases hchange with ⟨-, hkept⟩ | hreset | ⟨-, hset⟩
    · exact hkept.trans htv
    · exact absurd hreset hnoReset
    · exact hset

/-! ### ERR (10 R27) -/

/-- The codes of 60 R200, listed. -/
theorem CommandError.code_cases (e : CommandError) : e.code = 0x1 ∨ e.code = 0x2 ∨ e.code = 0x3 := by
  cases e with
  | invalidLength => exact .inl rfl
  | notInitialized => exact .inr (.inl rfl)
  | illegalCommand => exact .inr (.inr rfl)

/-- A step that changes ERR is a reset or a command. -/
theorem err_change {s t : State} (hstep : step s = .next t) (h : t.core.err ≠ s.core.err) :
    Resets s ∨ ∃ w, Issues s w := by
  cases step_cases hstep with
  | idle => exact absurd rfl h
  | read => exact absurd rfl h
  | writeKey => exact absurd rfl h
  | writeBlk => exact absurd rfl h
  | ignored => exact absurd rfl h
  | succeeds w c rest hpending => exact .inr ⟨w, rest, hpending⟩
  | fails w e rest hpending => exact .inr ⟨w, rest, hpending⟩
  | reset rest hpending => exact .inl ⟨rest, hpending⟩

/-- Settles O50: a command's outcome is OK or the code of an error (`issue_cases`); a read leaves the core as it was. -/
theorem whatChangesErr : Obligations.WhatChangesErr := by
  intro s t hstep
  refine ⟨err_change hstep, ?code, fun rest hpending => ?read⟩
  case code =>
    rintro ⟨w, rest, hpending⟩
    obtain ⟨c, hissue, hc⟩ := issue_cases w (s.takeAction rest)
    cases ((step_write .cmd hpending).trans hissue).symm.trans hstep
    rcases hc with hsucceeds | ⟨e, rfl⟩
    · exact .inl hsucceeds.err
    · exact .inr e.code_cases
  case read =>
    cases (step_read .status hpending).symm.trans hstep
    rfl

end Sys2Proof.Machine

/-! PROOFS. Reset, the idle core and CMD writes: the statements about 10_state R37, 70_reset R230 and R231, and 30_encoding
R90. -/

namespace Sys2Proof.Machine

/-! ### Reset -/

/-- With TV = 0 and ERR = OK a read of STATUS gives 0. -/
theorem readReg_status_eq_zero {c : CoreState} (htv : c.tv = false) (herr : c.err = 0) : readReg .status c = 0 := by
  simp [readReg, statusWord, htv, herr]

/-- Settles O51: both are the reset core's. -/
theorem resetClearsTvAndErr : Obligations.ResetClearsTvAndErr := by
  refine ⟨rfl, rfl, readReg_status_eq_zero rfl rfl, fun s rest hpending => ?_⟩
  exact ⟨_, step_reset hpending, rfl, rfl, readReg_status_eq_zero rfl rfl⟩

/-- An entry of a table of tables given by a function. -/
theorem tableRead_tabulate (f : Nat → Nat → Word) (k : Fin 4) (b : Byte) :
    tableRead (tabulate 4 fun k => tabulate 256 (f k)) k b = f k b.toNat := by
  simp [tableRead]

/-- Settles O52: each register is tabulated from the draws, in the order KEY, BLK, RK, TBL. -/
theorem resetTakesFreshDraws : Obligations.ResetTakesFreshDraws := by
  intro s rest hpending
  refine ⟨_, step_reset hpending, fun i => ?key, fun i => ?blk, fun i => ?rk, fun k b => ?tbl, rfl, rfl, rfl⟩
  case key => exact getElem_tabulate _ i.val i.isLt
  case blk => exact getElem_tabulate _ i.val i.isLt
  case rk => exact getElem_tabulate _ i.val i.isLt
  case tbl => exact tableRead_tabulate _ k b

/-! ### Idling and CMD writes -/

/-- Settles O53: the model's own law of the idle step. -/
theorem idleCoreDoesNothing : Obligations.IdleCoreDoesNothing := fun _ => step_idle

/-- Settles O54: a write to CMD issues its word, whose meaning `issue_ok` and `issue_error` give. -/
theorem stepRunsTheDecodedCommand : Obligations.StepRunsTheDecodedCommand := by
  intro s rest w hpending
  have hissue : step s = issue w (s.takeAction rest) := step_write .cmd hpending
  refine ⟨fun i hi => hissue.trans (issue_ok hi _), fun e he => hissue.trans (issue_error he _), fun u => ?fetch⟩
  have hword : tableWord 32 w.toNat = w := by
    rw [tableWord, Nat.mod_eq_of_lt w.isLt, BitVec.ofNat_toNat, BitVec.setWidth_eq]
  have hfirst : (u.withFetchWord 32 w.toNat).pending = .write 4 Reg.cmd.offset w :: u.pending :=
    congrArg (fun v => issueAction v :: u.pending) hword
  exact step_write .cmd hfirst

end Sys2Proof.Machine

/-! PROOFS. The units and the round constants: the statements about 10_state R32 and 40_sbox_diffusion R101, R105, R107 and
R108. -/

namespace Sys2Proof.Machine

/-- Settles O4: the table of R32, word by word and byte by byte. -/
theorem roundConstantsFollowTheirFormula : Obligations.RoundConstantsFollowTheirFormula := by
  unfold Obligations.RoundConstantsFollowTheirFormula
  decide

/-! ### τ works lane by lane (R101) -/

/-- Lane k of τ(x) is S of lane k of x. -/
theorem byteAt_tau (x : Word) {k : Nat} (hk : k < 4) : byteAt (tau x) k = sboxS (byteAt x k) := by
  obtain ⟨h3, h2, h1, h0⟩ := byteAt_wordOfBytes (sboxS (byteAt x 3)) (sboxS (byteAt x 2)) (sboxS (byteAt x 1))
    (sboxS (byteAt x 0))
  match k, hk with
  | 0, _ => exact h0
  | 1, _ => exact h1
  | 2, _ => exact h2
  | 3, _ => exact h3

/-- Two words with the same four bytes are the same word. -/
theorem word_ext_bytes {x y : Word} (h : ∀ k < 4, byteAt x k = byteAt y k) : x = y := by
  rw [← wordOfBytes_byteAt x, ← wordOfBytes_byteAt y, h 3 (by decide), h 2 (by decide), h 1 (by decide),
    h 0 (by decide)]

/-- τ takes equal bytes to equal bytes. -/
theorem tau_wordOfBytes (b3 b2 b1 b0 : Byte) :
    tau (wordOfBytes b3 b2 b1 b0) = wordOfBytes (sboxS b3) (sboxS b2) (sboxS b1) (sboxS b0) := by
  obtain ⟨h3, h2, h1, h0⟩ := byteAt_wordOfBytes b3 b2 b1 b0
  rw [tau, h3, h2, h1, h0]

/-- τ is injective, because S is, in each lane. -/
theorem tau_injective : Function.Injective tau := fun x y h =>
  word_ext_bytes fun k hk => sboxS_injective (by rw [← byteAt_tau x hk, ← byteAt_tau y hk, h])

/-- Settles O5: the laws by the lanes of τ, the corner cases by evaluation; an injective map of a finite type to itself is
bijective. -/
theorem tauSubstitutesLaneByLane : Obligations.TauSubstitutesLaneByLane := by
  refine ⟨fun x k hk => byteAt_tau x hk, fun x y k hk h => ?agree, fun b => tau_wordOfBytes b b b b,
    Finite.injective_iff_bijective.mp tau_injective, ?_, ?_, ?_, ?_⟩
  case agree => rw [byteAt_tau x hk, byteAt_tau y hk, h]
  all_goals decide

/-! ### L and L′ (R105) -/

theorem diffusionLPrime_xor (a b : Word) : diffusionLPrime (a ^^^ b) = diffusionLPrime a ^^^ diffusionLPrime b := by
  simp only [diffusionLPrime, rotl32_xor]
  ac_rfl

/-- L′ is an XOR of rotations, and rotations commute. -/
theorem diffusionLPrime_rotl32 (a : Word) (n : Nat) : diffusionLPrime (rotl32 a n) = rotl32 (diffusionLPrime a) n := by
  simp only [diffusionLPrime, rotl32_xor, rotl32_rotl32, Nat.add_comm n]

/-- Settles O6: both maps are XORs of rotations. -/
theorem diffusionIsLinearAndCommutesWithRotation : Obligations.DiffusionIsLinearAndCommutesWithRotation :=
  fun a b n => ⟨diffusionL_xor a b, diffusionLPrime_xor a b, diffusionL_rotl32 a n, diffusionLPrime_rotl32 a n⟩

/-! ### T and T′ (R107, R108) -/

/-- A rotation by 8 moves each byte one lane up, the top byte into lane 0. -/
theorem byteAt_rotl32_eight (x : Word) {k : Nat} (hk : k < 4) : byteAt (rotl32 x 8) k = byteAt x ((k + 3) % 4) := by
  apply BitVec.eq_of_getLsbD_eq
  intro j hj
  rw [getLsbD_byteAt _ _ _ hj, getLsbD_byteAt _ _ _ hj, rotl32_bit _ _ _ (by omega)]
  congr 1
  omega

/-- A word that a rotation by 8 fixes has four equal bytes. -/
theorem exists_equal_bytes_of_rotl32_eight {x : Word} (h : rotl32 x 8 = x) : ∃ c : Byte, x = wordOfBytes c c c c := by
  have hlane (k : Nat) (hk : k < 4) : byteAt x k = byteAt x ((k + 3) % 4) := by
    rw [← byteAt_rotl32_eight x hk, h]
  have h1 : byteAt x 1 = byteAt x 0 := hlane 1 (by decide)
  have h2 : byteAt x 2 = byteAt x 1 := hlane 2 (by decide)
  have h3 : byteAt x 3 = byteAt x 2 := hlane 3 (by decide)
  refine ⟨byteAt x 0, ?_⟩
  calc x
    _ = wordOfBytes (byteAt x 3) (byteAt x 2) (byteAt x 1) (byteAt x 0) := (wordOfBytes_byteAt x).symm
    _ = wordOfBytes (byteAt x 0) (byteAt x 0) (byteAt x 0) (byteAt x 0) := by rw [h3, h2, h1]

/-- A word of four equal bytes is fixed by a rotation by 8. -/
theorem rotl32_eight_equal_bytes (b : Byte) : rotl32 (wordOfBytes b b b b) 8 = wordOfBytes b b b b := by
  obtain ⟨h3, h2, h1, h0⟩ := byteAt_wordOfBytes b b b b
  apply word_ext_bytes
  intro k hk
  rw [byteAt_rotl32_eight _ hk]
  match k, hk with
  | 0, _ => exact h3.trans h0.symm
  | 1, _ => exact h0.trans h1.symm
  | 2, _ => exact h1.trans h2.symm
  | 3, _ => exact h2.trans h3.symm

/-- L commutes with the rotation by 8, so T takes equal bytes to equal bytes. -/
theorem transformT_equal_bytes (b : Byte) : ∃ c : Byte, transformT (wordOfBytes b b b b) = wordOfBytes c c c c := by
  apply exists_equal_bytes_of_rotl32_eight
  rw [transformT, tau_wordOfBytes, ← diffusionL_rotl32, rotl32_eight_equal_bytes]

/-- Settles O8: the composites are the definitions, and the corner cases are evaluated. -/
theorem compositeTransforms : Obligations.CompositeTransforms := by
  refine ⟨fun x => ⟨rfl, rfl⟩, transformT_equal_bytes, ?_, ?_, ?_, ?_, ?_, ?_, ?_, ?_⟩
  all_goals decide

end Sys2Proof.Machine

/-! PROOFS. KEYGEN, TINIT, and the commands ENC and DEC: the statements about 41_key_schedule R133, R136 and R138,
42_round_engine R155, R156, R160 and R166, and 43_table_transform R181, R183, R184 and R187. -/

namespace Sys2Proof.Machine

/-! ### KEYGEN (41 R133, R136) -/

/-- Every key has an expansion buffer by the equations of 41 R134. -/
theorem exists_key_expansion (key : Vector Word 4) : ∃ K : Nat → Word,
    (∀ j : Fin 4, K j = key[j] ^^^ Config.fk[j]) ∧ IsExpansion transformTPrime (wordAt Config.ck) K := by
  obtain ⟨K, hseed, hK⟩ := exists_expansion transformTPrime (wordAt Config.ck) (Vector.zipWith (· ^^^ ·) key Config.fk)
  exact ⟨K, fun j => (hseed j).trans (Vector.getElem_zipWith j.isLt), hK⟩

/-- Settles O20: KEYGEN writes the schedule, which is the slice K[4..35] of the key's expansion. -/
theorem keygenWritesOnlyRoundKeysAndErr : Obligations.KeygenWritesOnlyRoundKeysAndErr := by
  intro s
  obtain ⟨K, hseed, hK⟩ := exists_key_expansion s.core.key
  have hrk : ∀ i : Fin 32, (keySchedule s.core.key)[i] = K (i + 4) := keyScheduleMeetsItsRecurrence _ K hseed hK
  exact ⟨_, exec_keygen 4 s, ⟨K, hseed, hK, hrk⟩, rfl, rfl, rfl, rfl, rfl, rfl, rfl, rfl⟩

/-- Settles O22: each is a closed run of the schedule. -/
theorem keygenCornerCases : Obligations.KeygenCornerCases := by
  unfold Obligations.KeygenCornerCases
  decide +kernel

/-! ### Repeating a command (41 R138, 43 R184) -/

/-- A command that changes nothing any more can be performed any number of times. -/
theorem execTimes_of_fixed {i : Instr} {s : State} (h : exec i s = .next s) (n : Nat) : execTimes i n s = .next s := by
  induction n with
  | zero => rfl
  | succ n ih => simp only [execTimes, h, ih]

/-- A command whose effect on the core is idempotent leaves, performed n + 1 times, the state that one leaves. -/
theorem execTimes_succ_of_idempotent {i : Instr} (s : State)
    (h : commandOnCore i (commandOnCore i s.core) = commandOnCore i s.core) (n : Nat) :
    ∃ t, exec i s = .next t ∧ execTimes i (n + 1) s = .next t := by
  refine ⟨_, exec_eq i s, ?_⟩
  have hfixed : exec i (s.onCore (commandOnCore i)) = .next (s.onCore (commandOnCore i)) :=
    exec_of_commandOnCore h
  simp only [execTimes, exec_eq i s]
  exact execTimes_of_fixed hfixed n

/-- Settles O23: KEYGEN reads KEY, which it keeps, and TINIT reads nothing, so both are idempotent. -/
theorem keygenAndTinitAreIdempotent : Obligations.KeygenAndTinitAreIdempotent := fun n s =>
  ⟨execTimes_succ_of_idempotent (i := .keygen 4) s rfl n, execTimes_succ_of_idempotent (i := .tinit) s rfl n⟩

/-! ### TINIT (43 R181, R183, R187) -/

/-- A right rotation by 0 is the identity. -/
theorem rotr32_zero (x : Word) : rotr32 x 0 = x := rotl32_zero x

/-- Settles O31: the entries are those of `buildTables`, whose right rotations by 8k are left rotations by 32 − 8k. -/
theorem tinitBuildsTheTables : Obligations.TinitBuildsTheTables := by
  intro s
  refine ⟨_, exec_tinit s, fun b => ?entries, rfl, rfl, rfl, rfl, rfl, rfl, rfl, rfl⟩
  have hentry (k : Fin 4) : tableRead buildTables k b = rotr32 (tableBase b) (8 * k) := tableRead_buildTables k b
  exact ⟨(hentry 0).trans (rotr32_zero _), hentry 1, hentry 2, hentry 3, hentry⟩

/-- Settles O32: L commutes with the rotation that moves the lane (`tableEntry_eq_diffusionL`). -/
theorem tableEntryIsTheImageOfOneLane : Obligations.TableEntryIsTheImageOfOneLane := fun k b =>
  (tableRead_buildTables k b).trans (tableEntry_eq_diffusionL k b)

/-! ### Direction and variant of the engine (42 R160, R166) -/

/-- Crypt depends on the transform's values and on the subkeys of its 32 rounds. -/
theorem crypt_congr {tbl tbl' : Vector (Vector Word 256) 4} {rk rk' : Vector Word 32} {dir dir' : Direction}
    {var var' : Variant} (blk : Vector Word 4) (hF : roundTransform tbl var = roundTransform tbl' var')
    (hk : ∀ i < 32, wordAt rk (roundIndex dir i) = wordAt rk' (roundIndex dir' i)) :
    crypt tbl blk rk dir var = crypt tbl' blk rk' dir' var' := by
  rw [crypt, crypt, windowAfter_congr _ 32 (congrFun hF) hk]

/-- Settles O29: round i of both uses the same subkey. -/
theorem decryptIsEncryptWithReversedSchedule : Obligations.DecryptIsEncryptWithReversedSchedule := by
  intro tbl P rk rev var hrev
  refine crypt_congr P rfl fun i hi => ?_
  calc wordAt rk (31 - i)
    _ = rev[i] := (hrev ⟨i, hi⟩).symm
    _ = wordAt rev i := (wordAt_eq rev i hi).symm

/-- With valid tables the two variants give the same block. -/
theorem crypt_table_eq_direct (blk : Vector Word 4) (rk : Vector Word 32) (dir : Direction) :
    crypt buildTables blk rk dir .table = crypt buildTables blk rk dir .direct :=
  crypt_congr blk (roundTransform_eq_transformT fun _ => rfl) fun _ _ => rfl

/-- Once TV = 1 the two variants of a command do the same to a core with valid tables. -/
theorem cryptCommand_table_eq_direct {c : CoreState} (hvalid : TablesValid c) (htv : c.tv = true) (dir : Direction)
    (la lb : Nat) : cryptCommand dir .table la lb c = cryptCommand dir .direct la lb c := by
  by_cases hlen : la ≠ 4 ∨ lb ≠ 32
  · rw [cryptCommand_illegal hlen, cryptCommand_illegal hlen]
  · obtain ⟨rfl, rfl⟩ : la = 4 ∧ lb = 32 := by omega
    rw [cryptCommand_runs _ _ _ fun _ => htv, cryptCommand_runs _ _ _ fun _ => htv, hvalid htv, crypt_table_eq_direct]

/-- Settles O30: the blocks agree by 43 R186, and so do the commands, which differ in the block alone. -/
theorem variantsAreEquivalent : Obligations.VariantsAreEquivalent := by
  refine ⟨crypt_table_eq_direct, fun s la lb hinv htv => ?_⟩
  have hcore (dir : Direction) : s.onCore (cryptCommand dir .table la lb) = s.onCore (cryptCommand dir .direct la lb) :=
    State.onCore_eq (cryptCommand_table_eq_direct hinv.1 htv dir la lb)
  exact ⟨congrArg _ (hcore .encrypt), congrArg _ (hcore .decrypt)⟩

/-! ### The round trip on the machine (42 R159) -/

/-- On a core, DEC undoes ENC but for ERR, whenever both run. -/
theorem cryptCommand_decrypt_encrypt {c : CoreState} {var var' : Variant} (hvalid : TablesValid c)
    (htv : var = .table ∨ var' = .table → c.tv = true) :
    cryptCommand .decrypt var' 4 32 (cryptCommand .encrypt var 4 32 c) = { c with err := 0x0 } := by
  have hblock := decryptUndoesEncrypt c.tbl c.blk c.rk var var' fun h => hvalid (htv h)
  rw [cryptCommand_runs .encrypt var c fun h => htv (.inl h)]
  rw [cryptCommand_runs .decrypt var' { c with blk := _, err := 0x0 } fun h => htv (.inr h), hblock]

/-- Settles O28: each pair of commands runs the engine both ways. -/
theorem encThenDecRestoresTheMachine : Obligations.EncThenDecRestoresTheMachine := by
  intro s hinv restores
  have hrestores (e d : Instr) (var var' : Variant) (he : commandOnCore e = cryptCommand .encrypt var 4 32)
      (hd : commandOnCore d = cryptCommand .decrypt var' 4 32)
      (htv : var = .table ∨ var' = .table → s.core.tv = true) : restores e d := by
    refine ⟨s.onCore (commandOnCore e), exec_eq e s, exec_of_commandOnCore ?_⟩
    rw [State.onCore_core, he, hd]
    exact cryptCommand_decrypt_encrypt hinv.1 htv
  exact ⟨hrestores _ _ .direct .direct rfl rfl (by simp), fun htv =>
    ⟨hrestores _ _ .table .table rfl rfl fun _ => htv, hrestores _ _ .direct .table rfl rfl fun _ => htv,
      hrestores _ _ .table .direct rfl rfl fun _ => htv⟩⟩

/-! ### The published vector (95 V-KAT1) -/

/-- Settles O26: the two encryptions are closed runs of the engine, and decryption undoes the first (42 R159). -/
theorem knownAnswerVector : Obligations.KnownAnswerVector := by
  unfold Obligations.KnownAnswerVector
  intro kat ct zero
  have hcipher : crypt buildTables kat (keySchedule kat) .encrypt .direct = ct := by decide +kernel
  refine ⟨hcipher, ?decrypts, by decide +kernel⟩
  case decrypts =>
    rw [← hcipher]
    exact decryptUndoesEncrypt _ kat _ .direct .direct (by simp)

end Sys2Proof.Machine

/-! PROOFS. The errors of each command, and the assembler: the statements about 60_exceptions R200 by command, and about
30_encoding R91 and R92 on texts. -/

namespace Sys2Proof.Machine

/-- Settles O37: by command, the lemma on the outcome of its effect on the core. -/
theorem commandErrorsByCommand : Obligations.CommandErrorsByCommand := by
  intro s la lb _
  refine ⟨fun hla => exec_of_commandOnCore (keygenCommand_illegal hla _), fun hlen => ?lengths, fun htv => ?tables⟩
  case lengths =>
    exact ⟨exec_of_commandOnCore (cryptCommand_illegal hlen _ _ _), exec_of_commandOnCore (cryptCommand_illegal hlen _ _ _),
      exec_of_commandOnCore (cryptCommand_illegal hlen _ _ _), exec_of_commandOnCore (cryptCommand_illegal hlen _ _ _)⟩
  case tables =>
    exact ⟨exec_of_commandOnCore (cryptCommand_notInitialized _ _ htv),
      exec_of_commandOnCore (cryptCommand_notInitialized _ _ htv)⟩

/-- Settles O18: each text is read by evaluation. -/
theorem assemblerReadsEveryForm : Obligations.AssemblerReadsEveryForm := by
  refine ⟨?_, ?_, ?_, ?_, ?_, ?_, ?_, ?_⟩
  all_goals decide

end Sys2Proof.Machine
